-- ==== Sys2Proof/Word.lean ====
section
/-! DEFINITION. The word types of the LS8 core: a byte (a memory cell, a register, an operand) and a register number. -/

namespace Sys2Proof

/-- A byte, the width of every memory cell and register (00_scope.md R4: CELL_BITS, XLEN; R5). -/
abbrev Byte := BitVec 8

/-- A register number that has passed the check of 10_state.md R12: one of 0 to 7 (R11). -/
abbrev Reg := Fin 8

end Sys2Proof
end

