-- ==== Sys2Proof/Syntax.lean ====
section
/-! DEFINITION. The thirteen instructions of 30_encoding.md R53, one constructor each. An operand is the whole byte that
follows the opcode (R52): a register operand is a byte here, and WellFormed.lean says when it names a register. -/

namespace Sys2Proof

/-- One constructor per row of the opcode map (R53). -/
inductive Instr where
  /-- LDI Ra,imm (R80): `a` a register, `b` an immediate. -/
  | ldi (a b : Byte)
  /-- PRN Ra (R81). -/
  | prn (a : Byte)
  /-- HLT (R82). -/
  | hlt
  /-- MUL Ra,Rb (R86). -/
  | mul (a b : Byte)
  /-- ADD Ra,Rb (R87). -/
  | add (a b : Byte)
  /-- PUSH Ra (R90). -/
  | push (a : Byte)
  /-- POP Ra (R91). -/
  | pop (a : Byte)
  /-- CALL Ra (R95). -/
  | call (a : Byte)
  /-- RET (R96). -/
  | ret
  /-- CMP Ra,Rb (R100). -/
  | cmp (a b : Byte)
  /-- JMP Ra (R101). -/
  | jmp (a : Byte)
  /-- JEQ Ra (R102). -/
  | jeq (a : Byte)
  /-- JNE Ra (R103). -/
  | jne (a : Byte)
  deriving DecidableEq, Repr

end Sys2Proof
end

