-- ==== Sys2Proof/WellFormed.lean ====
section
/-! DEFINITION. When an instruction is well formed: every operand its row marks as a register is 0 to 7 (R12, R52). -/

namespace Sys2Proof

/-- The operand bytes the row of R53 marks as registers, `a` before `b` (R113 lists the same positions). The immediate
of LDI is not among them, and HLT and RET have none. -/
def Instr.regOperands : Instr → List Byte
  | .ldi a _ => [a]
  | .prn a => [a]
  | .hlt => []
  | .mul a b => [a, b]
  | .add a b => [a, b]
  | .push a => [a]
  | .pop a => [a]
  | .call a => [a]
  | .ret => []
  | .cmp a b => [a, b]
  | .jmp a => [a]
  | .jeq a => [a]
  | .jne a => [a]

/-- An operand byte names a register when it is 0 to 7; the byte is not masked (R12). -/
def regByteOk (b : Byte) : Bool := b.toNat < 8

/-- Every register operand names a register. -/
def Instr.wellFormed (i : Instr) : Bool := i.regOperands.all regByteOk

/-- The first register operand that names no register, `a` before `b` (R75, R113). -/
def Instr.firstBadOperand (i : Instr) : Option Byte := i.regOperands.find? fun b => !regByteOk b

end Sys2Proof
end

