-- ==== Sys2Proof/Decode.lean ====
section
/-! DEFINITION. The opcode map of 30_encoding.md R53, the decoder over the fixed three-byte window (R55, R71), total and
rejecting an unknown opcode by name, and after it the encoder. The register check of R12 is the first act of each
meaning (Machine/Operands.lean), which is where it stands in the step of R70: after the lookup, before the handler. -/

namespace Sys2Proof

/-! ## The opcode bytes: the named parameters OPC_… of 00_scope.md R4 -/

/-- OPC_LDI, printed in the source (R53). -/
def opcLdi : Byte := 0x82
/-- OPC_PRN, printed in the source (R53). -/
def opcPrn : Byte := 0x47
/-- OPC_HLT, printed in the source (R53). -/
def opcHlt : Byte := 0x01
/-- OPC_MUL. PRESUMED (R53, D1, log 1), unsafe. -/
def opcMul : Byte := 0xA2
/-- OPC_ADD, printed in the source (R53). -/
def opcAdd : Byte := 0xA0
/-- OPC_PUSH. PRESUMED (R53, D1, log 1), unsafe. -/
def opcPush : Byte := 0x45
/-- OPC_POP. PRESUMED (R53, D1, log 1), unsafe. -/
def opcPop : Byte := 0x46
/-- OPC_CALL. PRESUMED (R53, D1, log 1), unsafe. -/
def opcCall : Byte := 0x50
/-- OPC_RET. PRESUMED (R53, D1, log 1), unsafe. -/
def opcRet : Byte := 0x11
/-- OPC_CMP. PRESUMED (R53, D1, log 1), unsafe. -/
def opcCmp : Byte := 0xA7
/-- OPC_JMP. PRESUMED (R53, D1, log 1), unsafe. -/
def opcJmp : Byte := 0x54
/-- OPC_JEQ. PRESUMED (R53, D1, log 1), unsafe. -/
def opcJeq : Byte := 0x55
/-- OPC_JNE. PRESUMED (R53, D1, log 1), unsafe. -/
def opcJne : Byte := 0x56

/-! ## Decoding -/

/-- The fetch window (R71): the opcode and the two candidate operand bytes at `pc`, `pc + 1`, `pc + 2`. -/
structure Window where
  opcode : Byte
  a : Byte
  b : Byte
  deriving DecidableEq, Repr

/-- The window's bytes in address order (R34). -/
def Window.bytes (w : Window) : List Byte := [w.opcode, w.a, w.b]

/-- The first three bytes of a byte sequence as a window, if there are three. -/
def Window.ofBytes : List Byte → Option Window
  | o :: a :: b :: _ => some ⟨o, a, b⟩
  | _ => none

/-- Why the decoder rejects a window. -/
inductive DecodeError where
  /-- The opcode byte is none of the thirteen (R55, R72). Safe: the spec gives such a byte no meaning. -/
  | unknownOpcode (opcode : Byte)
  deriving DecidableEq, Repr

/-- One entry of the Instruction Table: the opcode byte and the instruction it makes of the two operand bytes. A byte
that is not part of the instruction is dropped here (R51, R56). -/
structure TableRow where
  opcode : Byte
  make : Byte → Byte → Instr

/-- The Instruction Table, in the order of R53; a constant (R27). -/
def instructionTable : List TableRow :=
  [⟨opcLdi, .ldi⟩, ⟨opcPrn, fun a _ => .prn a⟩, ⟨opcHlt, fun _ _ => .hlt⟩, ⟨opcMul, .mul⟩, ⟨opcAdd, .add⟩,
    ⟨opcPush, fun a _ => .push a⟩, ⟨opcPop, fun a _ => .pop a⟩, ⟨opcCall, fun a _ => .call a⟩,
    ⟨opcRet, fun _ _ => .ret⟩, ⟨opcCmp, .cmp⟩, ⟨opcJmp, fun a _ => .jmp a⟩, ⟨opcJeq, fun a _ => .jeq a⟩,
    ⟨opcJne, fun a _ => .jne a⟩]

/-- The lookup of R72: the whole opcode byte is matched (R55). -/
def lookup (opcode : Byte) : Option TableRow := instructionTable.find? (·.opcode == opcode)

/-- Decode a window (R55): the matched entry applied to the candidate operand bytes, or the rejection by name. -/
def decode (w : Window) : Except DecodeError Instr :=
  match lookup w.opcode with
  | some row => .ok (row.make w.a w.b)
  | none => .error (.unknownOpcode w.opcode)

/-! ## Encoding -/

/-- The opcode byte of an instruction (R53). -/
def Instr.opcode : Instr → Byte
  | .ldi _ _ => opcLdi
  | .prn _ => opcPrn
  | .hlt => opcHlt
  | .mul _ _ => opcMul
  | .add _ _ => opcAdd
  | .push _ => opcPush
  | .pop _ => opcPop
  | .call _ => opcCall
  | .ret => opcRet
  | .cmp _ _ => opcCmp
  | .jmp _ => opcJmp
  | .jeq _ => opcJeq
  | .jne _ => opcJne

/-- The operand bytes in address order: none in format F0, `a` in F1, `a` and `b` in F2 (R51). -/
def Instr.operands : Instr → List Byte
  | .ldi a b => [a, b]
  | .prn a => [a]
  | .hlt => []
  | .mul a b => [a, b]
  | .add a b => [a, b]
  | .push a => [a]
  | .pop a => [a]
  | .call a => [a]
  | .ret => []
  | .cmp a b => [a, b]
  | .jmp a => [a]
  | .jeq a => [a]
  | .jne a => [a]

/-- The bytes of an instruction in address order: the opcode, then the operands (R34, R50, R51). -/
def encode (i : Instr) : List Byte := i.opcode :: i.operands

/-- The length in bytes, 1 + the operand count (R50). -/
def Instr.length (i : Instr) : Nat := 1 + i.operands.length

/-! ## The opcode table's numbering of bits -/

/-- Byte `k` of an `nbits`-bit instruction word whose bit 0 is the least significant bit of the first byte; every bit at or
above `nbits` is 0. -/
def tableWordByte (nbits w k : Nat) : Byte := BitVec.ofNat 8 (w % 2 ^ nbits / 2 ^ (8 * k))

/-- The window such a word makes when its bytes are laid out in ascending address order (R34). -/
def tableWordWindow (nbits w : Nat) : Window :=
  ⟨tableWordByte nbits w 0, tableWordByte nbits w 1, tableWordByte nbits w 2⟩

/-- What the decoder reads from such a word; none where it rejects it. -/
def decodeTableWord (nbits w : Nat) : Option Instr :=
  match decode (tableWordWindow nbits w) with
  | .ok i => some i
  | .error _ => none

end Sys2Proof
end

