-- ==== Sys2Proof/Config.lean ====
section
/-! DEFINITION. The parameters of 00_scope.md R4 that are numbers of the machine (the opcode bytes are in Decode.lean,
the flag masks in Machine/Flags.lean). No free value is needed: the spec leaves no value open. -/

namespace Sys2Proof.Config

/-- MEM_SIZE: the number of memory cells (R4, R30). -/
abbrev memSize : Nat := 256

/-- SP_INDEX: the register used as stack pointer (R4, R14). -/
abbrev spIndex : Reg := 7

/-- SP_RESET: the stack pointer at reset (R4, R26). -/
abbrev spReset : Byte := 0xF4

/-- PC_RESET: the PC at reset, the entry point (R4, R26). -/
abbrev pcReset : Nat := 0

/-- LOAD_BASE: the address of the first image byte (R4, R43). -/
abbrev loadBase : Nat := 0

/-- FL_RESET: the flags at reset (R4, R26; the spec's own decision D4, log 4: DESIGN CHOICE, unsafe). -/
abbrev flReset : Byte := 0x00

end Sys2Proof.Config
end

