-- ==== Sys2Proof/Machine/State.lean ====
section
/-! DEFINITION. The state of 10_state.md R10 as plain data, the error record, the trace record, the reasons a step can stop
other than with a next state, and the state after reset. -/

namespace Sys2Proof.Machine

open Sys2Proof

/-- The memory of 20_memory.md R30, as the list of its non-zero cells in rising address order: an address that is not
listed reads as 0x00, its value at reset (10_state.md R26). Machine/Ops.lean has its operations and its canonical form. -/
abbrev Memory := List Host.Cell

/-- The run state (10_state.md R19, R20). -/
inductive RunState where
  /-- RUNNING: the core takes steps. -/
  | running
  /-- HALTED: HLT was executed; terminal. -/
  | halted
  /-- FAULTED: an error was raised; terminal (the spec's decision D7, log 7). -/
  | faulted
  deriving DecidableEq, Repr

/-- The error kinds the core can raise (60_exceptions.md R110). LoadError is the Loader's and no core ever raises it (R114). -/
inductive ErrorKind where
  /-- UnknownOpcodeError (R111). -/
  | unknownOpcode
  /-- AddressingError (R112). -/
  | addressing
  /-- InvalidRegisterError (R113). -/
  | invalidRegister
  deriving DecidableEq, Repr

/-- The error record ERR = (kind, pc, opcode, detail) of 60_exceptions.md R118 (the spec's decision D8, log 8). -/
structure ErrorRecord where
  kind : ErrorKind
  /-- The address of the failing step's opcode. -/
  pc : Nat
  /-- The byte fetched at `pc`, or none if that read failed. -/
  opcode : Option Byte
  /-- The opcode byte, the offending address, or the offending operand byte, by kind. -/
  detail : Nat
  deriving DecidableEq, Repr

/-- One record of the trace port (40_fetch_decode_dispatch.md R77). -/
structure TraceRecord where
  pc : Nat
  opcode : Byte
  a : Byte
  b : Byte
  regs : Vector Byte 8
  deriving DecidableEq, Repr

/-- The reasons a step stops the model with no next state. There is none: every error of the spec is a state of the
machine (run = FAULTED with ERR set, 60_exceptions.md R115, log 7), so `step` and `exec` never answer a fault. Safe: a type with
no constructor adds no stop and hides none. -/
inductive Fault where
  deriving DecidableEq, Repr

/-- The reasons the model refuses to give a meaning. -/
inductive Refusal where
  /-- Raised by an arm of `exec` whose instruction has no meaning yet. No arm does: all thirteen have one. Safe. -/
  | notModelled (mnemonic : String)
  deriving DecidableEq, Repr

/-- The whole state of one core: 10_state.md R10's table, and after it the two fields of the trace port (R77), which are
no architectural state. -/
structure State where
  /-- x[0] to x[7] (R11); x[7] is the stack pointer (R14). -/
  regs : Vector Byte 8
  /-- The program counter: an integer that never wraps, 0 to 256 in every run (R15, R16, log 3). -/
  pc : Nat
  /-- The flags register: E bit 0, G bit 1, L bit 2, the others always 0 (R17). -/
  fl : Byte
  /-- mem[0] to mem[255] (R30). -/
  mem : Memory
  /-- The run state (R19, R20). -/
  run : RunState
  /-- OUT, oldest first (R21). -/
  out : List Byte
  /-- ERR (R20, R118). -/
  err : Option ErrorRecord
  /-- Whether the trace port is enabled: parameter TRACE (00_scope.md R4, R77, log 14). -/
  traceOn : Bool
  /-- The records the trace port has delivered, oldest first (R77, log 14). -/
  trace : List TraceRecord
  deriving DecidableEq, Repr

/-- The state after reset (10_state.md R26, 70_reset_and_hazards.md R130), ready to take a step: run is RUNNING "from the
moment the host starts the core" (log 12). The trace port is off and empty (R4, log 14). -/
def State.reset : State where
  regs := #v[0, 0, 0, 0, 0, 0, 0, Config.spReset]
  pc := Config.pcReset
  fl := Config.flReset
  mem := []
  run := .running
  out := []
  err := none
  traceOn := false
  trace := []

/-- What a meaning answers. -/
abbrev Result := Host.Outcome State Fault Refusal

end Sys2Proof.Machine
end

