-- ==== Sys2Proof/Machine/Ops.lean ====
section
/-! DEFINITION. The primitives of the spec's pseudocode (00_scope.md R5): trunc8, memory, registers, the PC, the output
stream, the trace port, and `raise`. -/

namespace Sys2Proof.Machine

open Sys2Proof

/-- `trunc8(v)` = v mod 256 for any integer, a negative one too (R5): "truncated/wrapped into 8 bits" (R13). -/
def trunc8 (v : Int) : Byte := BitVec.ofInt 8 v

/-! ## Memory -/

/-- mem[a]; an unlisted address reads as 0x00, the reset contents (R26). -/
def Memory.get : Memory → Nat → Byte
  | [], _ => 0
  | (k, v) :: rest, a => if k = a then v else Memory.get rest a

/-- Put a cell at its place in the rising order, replacing the cell at the same address. -/
def Memory.insert : Memory → Nat → Byte → Memory
  | [], a, v => [(a, v)]
  | (k, w) :: rest, a, v =>
    if a < k then (a, v) :: (k, w) :: rest
    else if a = k then (a, v) :: rest
    else (k, w) :: Memory.insert rest a v

/-- Take every cell at an address out of the list. -/
def Memory.erase : Memory → Nat → Memory
  | [], _ => []
  | (k, w) :: rest, a => if k = a then Memory.erase rest a else (k, w) :: Memory.erase rest a

/-- mem[a] <- v. Writing 0x00, what an unlisted address reads as, unlists the address. -/
def Memory.set (m : Memory) (a : Nat) (v : Byte) : Memory :=
  if v = 0 then m.erase a else m.insert a v

/-- The canonical form from address `lo` on: addresses strictly rising, each in 0 to 255 (R30), no cell 0x00. -/
def Memory.wfFrom : Nat → Memory → Bool
  | _, [] => true
  | lo, (k, v) :: rest => decide (lo ≤ k) && decide (k < Config.memSize) && decide (v ≠ 0) && Memory.wfFrom (k + 1) rest

/-- The canonical form: two memories in it that read alike are the same list. -/
def Memory.wf (m : Memory) : Bool := Memory.wfFrom 0 m

/-- `MemRead(addr, 1)` (R31): the byte, or AddressingError (with the offending address). `addr` is an integer and is not
reduced modulo 256. -/
def memRead (m : Memory) (addr : Nat) : Except Nat Byte :=
  if addr < Config.memSize then .ok (m.get addr) else .error addr

/-- `MemWrite(addr, 1, v)` (R32): the memory after it, or AddressingError (with the offending address). -/
def memWrite (m : Memory) (addr : Nat) (v : Byte) : Except Nat Memory :=
  if addr < Config.memSize then .ok (m.set addr v) else .error addr

/-- Write bytes at consecutive addresses, upward from `addr`, each by MemWrite (R43). -/
def memWriteAll (m : Memory) (addr : Nat) : List Byte → Except Nat Memory
  | [] => .ok m
  | v :: rest =>
    match memWrite m addr v with
    | .ok m' => memWriteAll m' (addr + 1) rest
    | .error e => .error e

/-! ## Registers and the PC -/

/-- x[r], as the byte it is (R11). -/
def State.reg (s : State) (r : Reg) : Byte := s.regs[r]

/-- x[r] as the unsigned integer 0 to 255 the arithmetic of R85 works on. -/
def State.val (s : State) (r : Reg) : Int := ((s.reg r).toNat : Int)

/-- x[r] <- v: the register takes `trunc8 v` (R13). No register is hard-wired (R11) and none is protected (R14). -/
def State.setReg (s : State) (r : Reg) (v : Int) : State := { s with regs := s.regs.set r (trunc8 v) }

/-- The stack pointer's value, x[7] (R14). -/
def State.sp (s : State) : Byte := s.reg Config.spIndex

/-- x[7] <- trunc8(x[7] - 1): a plain register write, so 0x00 becomes 0xFF (R90, R137, log 16). -/
def State.decSp (s : State) : State := s.setReg Config.spIndex (s.val Config.spIndex - 1)

/-- x[7] <- trunc8(x[7] + 1): 0xFF becomes 0x00 (R91, R137, log 16). -/
def State.incSp (s : State) : State := s.setReg Config.spIndex (s.val Config.spIndex + 1)

/-- pc <- t, an integer (R15). -/
def State.setPc (s : State) (t : Nat) : State := { s with pc := t }

/-- pc <- pc + n, not reduced: the PC does not wrap (R16). -/
def State.addPc (s : State) (n : Nat) : State := s.setPc (s.pc + n)

/-! ## Data accesses, always at x[7] (R33). A register is always a valid address, so these cannot fail (R44). -/

/-- MemRead(x[7], 1). -/
def State.loadAtSp (s : State) : Byte := s.mem.get s.sp.toNat

/-- MemWrite(x[7], 1, v). -/
def State.storeAtSp (s : State) (v : Byte) : State := { s with mem := s.mem.set s.sp.toNat v }

/-! ## Output, halt, trace -/

/-- out(v): append a byte to OUT (R21). -/
def State.emit (s : State) (v : Byte) : State := { s with out := s.out ++ [v] }

/-- run <- HALTED (R82). -/
def State.halt (s : State) : State := { s with run := .halted }

/-- Deliver one trace record when the port is enabled: the window just fetched and the registers before the handler (R77,
log 14). -/
def State.deliverTrace (s : State) (w : Window) : State :=
  if s.traceOn then { s with trace := s.trace ++ [⟨s.pc, w.opcode, w.a, w.b, s.regs⟩] } else s

/-! ## Errors -/

/-- The codes of the error kinds (60_exceptions.md R110, the spec's decision D8). -/
def ErrorKind.code : ErrorKind → Nat
  | .unknownOpcode => 1
  | .addressing => 2
  | .invalidRegister => 3

/-- `raise`, the machine's one way to take an error (60_exceptions.md R115, R116): run <- FAULTED, ERR <- the record, and
nothing else changes, the PC among it. There is no vector, no saved state, no mode, and no return (R115, R120). -/
def State.raise (s : State) (r : ErrorRecord) : State := { s with run := .faulted, err := some r }

end Sys2Proof.Machine
end

