-- ==== Sys2Proof/Machine/Operands.lean ====
section
/-! DEFINITION. The two operand kinds of 30_encoding.md R52. An immediate is used as it stands and needs no operation; a
register operand is checked here, before the handler changes anything (R12, R75, R113; log 5). -/

namespace Sys2Proof.Machine

open Sys2Proof

/-- The register an operand byte names: the whole byte is the index, unmasked; 8 to 255 name none (R12). -/
def operandReg (b : Byte) : Option Reg :=
  if h : b.toNat < 8 then some ⟨b.toNat, h⟩ else none

/-- Go on with the register a byte names, or raise InvalidRegisterError with the byte as detail (R113, R118). `opcode` is
the failing instruction's. -/
def withReg (opcode operand : Byte) (s : State) (handler : Reg → Result) : Result :=
  match operandReg operand with
  | some r => handler r
  | none => .next (s.raise ⟨.invalidRegister, s.pc, some opcode, operand.toNat⟩)

/-- The same for two register operands, `a` checked before `b` (R75; log 17). -/
def withRegs (opcode a b : Byte) (s : State) (handler : Reg → Reg → Result) : Result :=
  withReg opcode a s fun ra => withReg opcode b s fun rb => handler ra rb

end Sys2Proof.Machine
end

