-- ==== Sys2Proof/Machine/Arithmetic.lean ====
section
/-! DEFINITION. The handlers of 42_arithmetic.md: MUL, ADD. The exact result of two unsigned values is computed and its low
eight bits are written (R85); no flag changes. -/

namespace Sys2Proof.Machine

open Sys2Proof

/-- MUL (R86): x[a] <- trunc8(x[a] * x[b]); pc <- pc + 3. -/
def execMul (a b : Byte) (s : State) : Result :=
  withRegs opcMul a b s fun ra rb => .next ((s.setReg ra (s.val ra * s.val rb)).addPc 3)

/-- ADD (R87): x[a] <- trunc8(x[a] + x[b]); pc <- pc + 3. -/
def execAdd (a b : Byte) (s : State) : Result :=
  withRegs opcAdd a b s fun ra rb => .next ((s.setReg ra (s.val ra + s.val rb)).addPc 3)

end Sys2Proof.Machine
end

