-- ==== Sys2Proof/Machine/CallReturn.lean ====
section
/-! DEFINITION. The handlers of 44_call_return.md: CALL, RET. -/

namespace Sys2Proof.Machine

open Sys2Proof

/-- CALL (R95): x[7] <- trunc8(x[7] - 1); MemWrite(x[7], 1, pc + 2); pc <- x[a], read after the decrement (D9, log 9).
`pc + 2` fits a byte for every CALL that is fetched (pc <= 253); where it would not, its low byte is stored (log 19). -/
def execCall (a : Byte) (s : State) : Result :=
  withReg opcCall a s fun ra =>
    .next ((s.decSp.storeAtSp (trunc8 (s.pc + 2))).setPc (s.decSp.reg ra).toNat)

/-- RET (R96): pc <- MemRead(x[7], 1); x[7] <- trunc8(x[7] + 1). -/
def execRet (s : State) : Result := .next (s.setPc s.loadAtSp.toNat).incSp

end Sys2Proof.Machine
end

