-- ==== Sys2Proof/Machine/Flags.lean ====
section
/-! DEFINITION. The flags register (10_state.md R17, R18): its bits, the one write and the one flag computation. -/

namespace Sys2Proof.Machine

open Sys2Proof

/-- E, Equal: bit 0 (R17). -/
def flagE : Byte := 0x01
/-- G, Greater-than: bit 1 (R17; 90_conflicts.md C1). -/
def flagG : Byte := 0x02
/-- L, Less-than: bit 2 (R17; 90_conflicts.md C1). -/
def flagL : Byte := 0x04
/-- The three defined bits; "nothing can set" the others (R17). -/
def flDefined : Byte := 0x07

/-- fl <- v, the whole register; bits 7:3 stay 0 whatever is written (R17). -/
def State.setFl (s : State) (v : Byte) : State := { s with fl := v &&& flDefined }

/-- fl[0], the E bit, the only one an instruction reads (R18). -/
def State.flEqual (s : State) : Bool := s.fl.getLsbD 0

/-- The outcome of comparing two unsigned bytes (R100): exactly one of E, L, G. -/
def compareFlags (x y : Byte) : Byte :=
  if x = y then flagE else if x.toNat < y.toNat then flagL else flagG

end Sys2Proof.Machine
end

