-- ==== Sys2Proof/Machine/CompareBranch.lean ====
section
/-! DEFINITION. The handlers of 45_compare_and_branch.md: CMP, JMP, JEQ, JNE. A register operand is checked whether or not
the jump is taken (R102, R103; D5, log 5). -/

namespace Sys2Proof.Machine

open Sys2Proof

/-- CMP (R100): FL is overwritten with exactly one of E, L, G; pc <- pc + 3. -/
def execCmp (a b : Byte) (s : State) : Result :=
  withRegs opcCmp a b s fun ra rb => .next ((s.setFl (compareFlags (s.reg ra) (s.reg rb))).addPc 3)

/-- JMP (R101): pc <- x[a]. -/
def execJmp (a : Byte) (s : State) : Result :=
  withReg opcJmp a s fun ra => .next (s.setPc (s.reg ra).toNat)

/-- JEQ (R102): if fl[0] = 1 then pc <- x[a] else pc <- pc + 2. -/
def execJeq (a : Byte) (s : State) : Result :=
  withReg opcJeq a s fun ra => .next (if s.flEqual then s.setPc (s.reg ra).toNat else s.addPc 2)

/-- JNE (R103): if fl[0] = 0 then pc <- x[a] else pc <- pc + 2. -/
def execJne (a : Byte) (s : State) : Result :=
  withReg opcJne a s fun ra => .next (if s.flEqual then s.addPc 2 else s.setPc (s.reg ra).toNat)

end Sys2Proof.Machine
end

