-- ==== Sys2Proof/Machine/LoadPrintHalt.lean ====
section
/-! DEFINITION. The handlers of 41_load_print_halt.md: LDI, PRN, HLT. -/

namespace Sys2Proof.Machine

open Sys2Proof

/-- LDI (R80): x[a] <- b; pc <- pc + 3. -/
def execLdi (a b : Byte) (s : State) : Result :=
  withReg opcLdi a s fun ra => .next ((s.setReg ra b.toNat).addPc 3)

/-- PRN (R81): out(x[a]); pc <- pc + 2. -/
def execPrn (a : Byte) (s : State) : Result :=
  withReg opcPrn a s fun ra => .next ((s.emit (s.reg ra)).addPc 2)

/-- HLT (R82): run <- HALTED; the PC stays on the HLT opcode (90_conflicts.md C4). -/
def execHlt (s : State) : Result := .next s.halt

end Sys2Proof.Machine
end

