-- ==== Sys2Proof/Machine/Stack.lean ====
section
/-! DEFINITION. The handlers of 43_stack.md: PUSH, POP. The statements run in the written order, each seeing the one
before, which settles operand 7 (D9, log 9). -/

namespace Sys2Proof.Machine

open Sys2Proof

/-- PUSH (R90): x[7] <- trunc8(x[7] - 1); MemWrite(x[7], 1, x[a]), with x[a] read after the decrement; pc <- pc + 2. -/
def execPush (a : Byte) (s : State) : Result :=
  withReg opcPush a s fun ra => .next ((s.decSp.storeAtSp (s.decSp.reg ra)).addPc 2)

/-- POP (R91): x[a] <- MemRead(x[7], 1); x[7] <- trunc8(x[7] + 1), after the load; pc <- pc + 2. -/
def execPop (a : Byte) (s : State) : Result :=
  withReg opcPop a s fun ra => .next ((s.setReg ra s.loadAtSp.toNat).incSp.addPc 2)

end Sys2Proof.Machine
end

