-- ==== Sys2Proof/Machine/Fetch.lean ====
section
/-! DEFINITION. The pass of the dispatch loop (40_fetch_decode_dispatch.md R70): fetch the window, deliver the trace
record, look the opcode up, run the handler. Machine/Step.lean calls it while the core is RUNNING. -/

namespace Sys2Proof.Machine

open Sys2Proof

/-- The fetch (R71): MemRead at pc, pc + 1, pc + 2, in that order, whatever the opcode. The first read that fails gives the
error record: the offending address, and the opcode byte if it was read (R112, R118). -/
def fetch (s : State) : Except ErrorRecord Window :=
  match memRead s.mem s.pc with
  | .error addr => .error ⟨.addressing, s.pc, none, addr⟩
  | .ok opcode =>
    match memRead s.mem (s.pc + 1) with
    | .error addr => .error ⟨.addressing, s.pc, some opcode, addr⟩
    | .ok a =>
      match memRead s.mem (s.pc + 2) with
      | .error addr => .error ⟨.addressing, s.pc, some opcode, addr⟩
      | .ok b => .ok ⟨opcode, a, b⟩

/-- Lookup and handler over a fetched window: UnknownOpcodeError carries the opcode and the PC (R72, R111, R118). -/
def runWindow (w : Window) (s : State) : Result :=
  match decode w with
  | .ok i => exec i s
  | .error (.unknownOpcode b) => .next (s.raise ⟨.unknownOpcode, s.pc, some b, b.toNat⟩)

/-- One pass of the loop (R70, R75): an AddressingError of the fetch comes before the lookup and delivers no trace record
(R77). -/
def runInstruction (s : State) : Result :=
  match fetch s with
  | .error r => .next (s.raise r)
  | .ok w => runWindow w (s.deliverTrace w)

/-- A table word's bytes placed at the PC, with the core RUNNING: all the fetch needs (log 12). Beyond pc 253 no instruction
can be fetched (R134) and nothing is placed. -/
def placeFetchWord (s : State) (nbits w : Nat) : State :=
  match memWriteAll s.mem s.pc (tableWordWindow nbits w).bytes with
  | .ok m => { s with mem := m, run := .running }
  | .error _ => s

end Sys2Proof.Machine
end

