-- ==== Sys2Proof/Machine/Step.lean ====
section
/-! DEFINITION. The step (40_fetch_decode_dispatch.md R70): in RUNNING one pass of the loop; in HALTED and FAULTED nothing. -/

namespace Sys2Proof.Machine

open Sys2Proof

/-- One step. A HALTED or FAULTED core takes no step and changes no state (R19, R20, R70): the state is its own successor. -/
def step (s : State) : Host.Outcome State Fault Refusal :=
  match s.run with
  | .running => runInstruction s
  | .halted => .next s
  | .faulted => .next s

/-- The state with an instruction word where the next step fetches (see placeFetchWord). -/
def State.withFetchWord (s : State) (nbits w : Nat) : State := placeFetchWord s nbits w

end Sys2Proof.Machine
end

