-- ==== Sys2Proof/Machine/Loader.lean ====
section
/-! DEFINITION. What the host does to a core that is not running (60_exceptions.md R127): load the image and start
(20_memory.md R43, 70_reset_and_hazards.md R131, R132), and show OUT. The image's text form is outside the core (R3). -/

namespace Sys2Proof.Machine

open Sys2Proof

/-- Load an image from address 0 upward; memory alone changes (R43, R131). An image of more than 256 bytes is refused
before the run: none (D13, log 13). -/
def State.loadImage (s : State) (img : List Byte) : Option State :=
  match memWriteAll s.mem Config.loadBase img with
  | .ok m => some { s with mem := m }
  | .error _ => none

/-- The launch state of R132: reset, then load; a function of the image alone (log 12). -/
def launch (img : List Byte) : Option State := State.reset.loadImage img

/-- The trace port switched on or off by the host before the run (R77, parameter TRACE; log 14). -/
def State.setTrace (s : State) (on : Bool) : State := { s with traceOn := on }

/-- OUT as the host shows it: each byte an unsigned decimal numeral, unpadded, a line of its own, in order (R21, R81). -/
def consoleLines (s : State) : List String := s.out.map fun v => toString v.toNat

end Sys2Proof.Machine
end

