-- ==== Sys2Proof/Safety.lean ====
section
/-! DEFINITION. The terms the claims use: the invariant of a run, what an error record says of the state it was raised in,
frames, and runs. -/

namespace Sys2Proof.Machine

open Sys2Proof

/-- The window at the PC, for a PC at which the fetch succeeds. -/
def State.window (s : State) : Window := ⟨s.mem.get s.pc, s.mem.get (s.pc + 1), s.mem.get (s.pc + 2)⟩

/-- ERR explains the stop it records (60_exceptions.md R118): it names the PC, which still points at the failing opcode
(R116), and the cause is there to see in memory. -/
def ErrorRecord.Explains (r : ErrorRecord) (s : State) : Prop :=
  r.pc = s.pc ∧
  match r.kind with
  | .addressing =>
      254 ≤ s.pc ∧ r.detail = 256 ∧ r.opcode = if s.pc = 256 then none else some (s.mem.get s.pc)
  | .unknownOpcode =>
      s.pc ≤ 253 ∧ r.opcode = some s.window.opcode ∧ r.detail = s.window.opcode.toNat ∧ (∀ i, decode s.window ≠ .ok i)
  | .invalidRegister =>
      s.pc ≤ 253 ∧ r.opcode = some s.window.opcode ∧
        ∃ i b, decode s.window = .ok i ∧ i.firstBadOperand = some b ∧ r.detail = b.toNat

/-- The invariant of every run: memory in canonical form, the PC 0 to 256 (10_state.md R16), FL with at most one of its
three defined bits and no other (R17, R18), ERR set exactly when FAULTED and then explaining the stop (R20, R118), and a
HALTED core's PC on a HLT opcode (R74, R82). -/
structure Inv (s : State) : Prop where
  memory : s.mem.wf = true
  pc : s.pc ≤ 256
  fl : s.fl = 0 ∨ s.fl = 0x01 ∨ s.fl = 0x02 ∨ s.fl = 0x04
  running : s.run = .running → s.err = none
  halted : s.run = .halted → s.err = none ∧ s.pc ≤ 253 ∧ s.mem.get s.pc = 0x01
  faulted : s.run = .faulted → ∃ r, s.err = some r ∧ r.Explains s

/-- Every byte of memory reads alike. -/
def SameMemory (s t : State) : Prop := ∀ a, t.mem.get a = s.mem.get a

/-- The run state, ERR and the trace port are alike. -/
def SameControl (s t : State) : Prop :=
  t.run = s.run ∧ t.err = s.err ∧ t.traceOn = s.traceOn ∧ t.trace = s.trace

/-- Two states that agree on all the architectural state of 10_state.md R10; the trace port may differ. -/
def SameArch (s t : State) : Prop :=
  t.regs = s.regs ∧ t.pc = s.pc ∧ t.fl = s.fl ∧ t.mem = s.mem ∧ t.run = s.run ∧ t.out = s.out ∧ t.err = s.err

/-- The error state of a failed instruction (60_exceptions.md R116): FAULTED with this record, all else as before. -/
def Failed (r : ErrorRecord) (s t : State) : Prop :=
  t.run = .faulted ∧ t.err = some r ∧ t.regs = s.regs ∧ t.pc = s.pc ∧ t.fl = s.fl ∧ t.mem = s.mem ∧ t.out = s.out ∧
    t.traceOn = s.traceOn ∧ t.trace = s.trace

/-- A run of `n` steps of the host's machine. -/
def Runs (n : Nat) (s t : State) : Prop := Host.Core.run Sys2Proof.core n s = .next t

/-- Instructions executed one after the other by their handlers, wherever they stand in memory. -/
def execAll : List Instr → State → Result
  | [], s => .next s
  | i :: rest, s =>
    match exec i s with
    | .next t => execAll rest t
    | .fault r => .fault r
    | .refused r => .refused r

/-- A core that has stopped for good (10_state.md R19, R20). -/
def Stopped (s : State) : Prop := s.run = .halted ∨ s.run = .faulted

end Sys2Proof.Machine
end

