-- ==== Sys2Proof/Certificates/Slice0/Obligations.lean ====
section
/-! DEFINITION. The statements for the provers. A docstring names the rule a statement formalises; where a clause rests on a
choice the spec marks as its own (92_eei_decisions.md D<n>) it says so and names the log entry. -/

open Sys2Proof Sys2Proof.Machine

/-! ## Encoding -/

/-- Windows written out from the encodings of 30_encoding.md R51 and R53, one or more of each family, decode to the
instruction they stand for. The bytes 0xA2, 0x45, 0x50, 0x11, 0xA7, 0x56 are D1's (log 1). -/
def Obligations.DecodesWordsWrittenFromTheMap : Prop :=
  decode ⟨0x82, 0x03, 0xC8⟩ = .ok (.ldi 3 200) ∧ decode ⟨0x47, 0x04, 0x99⟩ = .ok (.prn 4) ∧
  decode ⟨0x01, 0xFF, 0xFF⟩ = .ok .hlt ∧ decode ⟨0xA0, 0x02, 0x03⟩ = .ok (.add 2 3) ∧
  decode ⟨0xA2, 0x00, 0x01⟩ = .ok (.mul 0 1) ∧ decode ⟨0x45, 0x07, 0x00⟩ = .ok (.push 7) ∧
  decode ⟨0x50, 0x01, 0x00⟩ = .ok (.call 1) ∧ decode ⟨0x11, 0x00, 0x00⟩ = .ok .ret ∧
  decode ⟨0xA7, 0x00, 0x02⟩ = .ok (.cmp 0 2) ∧ decode ⟨0x56, 0x03, 0x00⟩ = .ok (.jne 3)

/-- 30_encoding.md R55: the whole opcode byte is matched against thirteen distinct values and every other byte, 0x00 among
them, is rejected by name. Nine of the values are D1's (log 1). -/
def Obligations.DecodesExactlyTheThirteenOpcodes : Prop :=
  let opcodes : List Byte := [0x82, 0x47, 0x01, 0xA2, 0xA0, 0x45, 0x46, 0x50, 0x11, 0xA7, 0x54, 0x55, 0x56]
  (∀ w, w.opcode ∈ opcodes → ∃ i, decode w = .ok i ∧ i.opcode = w.opcode) ∧
  (∀ w, w.opcode ∉ opcodes → decode w = .error (.unknownOpcode w.opcode)) ∧
  opcodes.Nodup ∧ opcodes.length = 13 ∧ (0x00 : Byte) ∉ opcodes

/-- No bit of an encoding is dropped: the bytes of any instruction, followed by any bytes that complete the window, decode to
that instruction (R51, R57). Every operand byte is covered, also one that names no register. -/
def Obligations.EncodeThenDecodeGivesTheInstruction : Prop :=
  ∀ (i : Instr) (rest : List Byte), 3 ≤ i.length + rest.length →
    ∃ w, Window.ofBytes (encode i ++ rest) = some w ∧ decode w = .ok i

/-- The other direction: a window that decodes to an instruction begins with that instruction's bytes, as many as its
length, so no two instructions share an encoding and an instruction has one encoding only (R50, R57). -/
def Obligations.DecodedWindowBeginsWithTheEncoding : Prop :=
  ∀ (w : Window) (i : Instr), decode w = .ok i → w.bytes.take i.length = encode i

/-- R56: a byte of the window that is not part of the instruction has no effect on what is decoded. -/
def Obligations.BytesOutsideTheInstructionAreIgnored : Prop :=
  ∀ (o a b : Byte) (i : Instr), decode ⟨o, a, b⟩ = .ok i →
    (i.length = 1 → ∀ a' b', decode ⟨o, a', b'⟩ = .ok i) ∧ (i.length = 2 → ∀ b', decode ⟨o, a, b'⟩ = .ok i)

/-! ## Memory -/

/-- The contracts of MemRead and MemWrite (20_memory.md R31, R32), for every memory and every integer address. -/
def Obligations.MemoryAccessContract : Prop :=
  ∀ (m : Memory) (addr : Nat) (v : Byte),
    (addr ≤ 255 → memRead m addr = .ok (m.get addr) ∧
      ∃ m', memWrite m addr v = .ok m' ∧ memRead m' addr = .ok v ∧ ∀ c, c ≠ addr → m'.get c = m.get c) ∧
    (256 ≤ addr → memRead m addr = .error addr ∧ memWrite m addr v = .error addr)

/-- The canonical form does what it is for: two memories in it that read alike at every address are the same data (the
model's own representation, log 15). -/
def Obligations.CanonicalMemoriesThatReadAlikeAreEqual : Prop :=
  ∀ m m' : Memory, m.wf = true → m'.wf = true → (∀ a, m.get a = m'.get a) → m = m'

/-! ## Reset, load, start -/

/-- The reset values of 10_state.md R26. fl = 0x00 is D4's (log 4); OUT, ERR and run as state are D11's and D7's (logs 11 and
7), the trace port's two fields the model's (log 14). -/
def Obligations.ResetValues : Prop :=
  (∀ a, State.reset.mem.get a = 0) ∧ (∀ r : Reg, State.reset.reg r = if r = 7 then 0xF4 else 0) ∧ State.reset.pc = 0 ∧
  State.reset.fl = 0 ∧ State.reset.out = [] ∧ State.reset.err = none ∧ State.reset.run = .running ∧
  State.reset.traceOn = false ∧ State.reset.trace = []

/-- The invariant holds at reset. -/
def Obligations.ResetMeetsTheInvariant : Prop := Inv State.reset

/-- 70_reset_and_hazards.md R131: loading writes the image from address 0 upward and changes memory alone. -/
def Obligations.LoadingChangesMemoryAlone : Prop :=
  ∀ img : List Byte, img.length ≤ 256 →
    ∃ s, launch img = some s ∧ (∀ a, s.mem.get a = img[a]?.getD 0) ∧ s.regs = State.reset.regs ∧ s.fl = State.reset.fl ∧
      s.pc = State.reset.pc ∧ s.out = State.reset.out ∧ s.err = State.reset.err ∧ s.run = State.reset.run ∧
      s.traceOn = State.reset.traceOn ∧ s.trace = State.reset.trace

/-- Every launch state meets the invariant, and an image of more than 256 bytes never reaches the core (D13, log 13). -/
def Obligations.LaunchMeetsTheInvariantOrIsRefused : Prop :=
  ∀ img : List Byte,
    (∀ s, launch img = some s → Inv s ∧ img.length ≤ 256) ∧ (256 < img.length → launch img = none)

/-! ## The step -/

/-- A step runs the decoded instruction (40_fetch_decode_dispatch.md R70): at pc 0 to 253 in RUNNING, the step is `exec` of
the instruction the three bytes at the PC decode to, at the state itself, after the trace record of R77 when the port is on
(log 14). The handler alone moves the PC (R73). -/
def Obligations.StepRunsTheDecodedInstruction : Prop :=
  ∀ (s : State) (i : Instr), s.run = .running → s.pc ≤ 253 →
    decode ⟨s.mem.get s.pc, s.mem.get (s.pc + 1), s.mem.get (s.pc + 2)⟩ = .ok i →
    step s = exec i (if s.traceOn then
      { s with trace := s.trace ++
          [⟨s.pc, s.mem.get s.pc, s.mem.get (s.pc + 1), s.mem.get (s.pc + 2), s.regs⟩] }
      else s)

/-- HALTED and FAULTED are terminal (10_state.md R19, R20): for any number of steps nothing changes. A stopped core's step
that changes nothing is log 7's (D7). -/
def Obligations.StoppedCoreNeverMoves : Prop := ∀ (n : Nat) (s : State), Stopped s → Runs n s s

/-- No step ends the model: every step answers a next state, never a fault or a refusal. An error as a next state is D7's
(log 7). -/
def Obligations.EveryStepAnswersANextState : Prop := ∀ s : State, ∃ t, step s = .next t

/-- 40_fetch_decode_dispatch.md R72: an opcode that is not in the table raises UnknownOpcodeError with the opcode and the PC;
nothing else happens in that step, and it is neither skipped nor retried. FAULTED, ERR and the endless stay there are D7's
(log 7), that nothing else has changed is D6's (log 6). -/
def Obligations.UnknownOpcodeIsFatal : Prop :=
  ∀ s : State, s.run = .running → s.pc ≤ 253 → (∀ row ∈ instructionTable, row.opcode ≠ s.mem.get s.pc) →
    ∃ t e, step s = .next t ∧ t.run = .faulted ∧ t.err = some e ∧ e.kind = .unknownOpcode ∧
      e.opcode = some (s.mem.get s.pc) ∧ e.pc = s.pc ∧ t.regs = s.regs ∧ t.pc = s.pc ∧ t.fl = s.fl ∧ t.mem = s.mem ∧
      t.out = s.out ∧ ∀ n, Runs n t t

/-- 60_exceptions.md R112: MemRead and MemWrite fail exactly outside 0 to 255; a step raises AddressingError exactly when it
begins with pc 254, 255 or 256, the address then being 256; no handler raises it. The fixed window behind those three values
is D2's (log 2), the error as a next state D7's (log 7), the address in the record's detail D8's (log 8). -/
def Obligations.AddressingErrorExactlyAtTheWindowsEnd : Prop :=
  (∀ (m : Memory) (addr : Nat) (v : Byte), (memRead m addr = .error addr ↔ 256 ≤ addr) ∧
    (memWrite m addr v = .error addr ↔ 256 ≤ addr)) ∧
  (∀ s : State, s.run = .running → s.err = none → s.pc ≤ 256 →
    ∃ t, step s = .next t ∧
      ((∃ e, t.err = some e ∧ e.kind = .addressing) ↔ (s.pc = 254 ∨ s.pc = 255 ∨ s.pc = 256))) ∧
  (∀ (s : State) (e : ErrorRecord), s.pc ≤ 256 → fetch s = .error e → e.kind = .addressing ∧ e.detail = 256) ∧
  (∀ (i : Instr) (s t : State) (e : ErrorRecord), s.err = none → exec i s = .next t → t.err = some e → e.kind ≠ .addressing)

/-- The record of an AddressingError and the state it leaves, at each of the three values of the PC: nothing but run and ERR
changes, and no trace record is delivered. The fixed window is D2's (log 2), the precision D6's (log 6), the error as a next
state D7's (log 7), the record's content D8's (log 8), the trace port the model's (log 14). -/
def Obligations.AddressingErrorRecord : Prop :=
  ∀ s : State, s.run = .running →
    (s.pc = 254 → step s = .next { s with run := .faulted, err := some ⟨.addressing, 254, some (s.mem.get 254), 256⟩ }) ∧
    (s.pc = 255 → step s = .next { s with run := .faulted, err := some ⟨.addressing, 255, some (s.mem.get 255), 256⟩ }) ∧
    (s.pc = 256 → step s = .next { s with run := .faulted, err := some ⟨.addressing, 256, none, 256⟩ })

/-- A register operand of 8 to 255 raises InvalidRegisterError in every instruction that has one, at every such position,
`a` before `b`, taken or not, before anything else changes (60_exceptions.md R113). When it is checked is D5's (log 5), that
nothing has changed D6's (log 6), FAULTED with ERR D7's (log 7), the record's content D8's (log 8), the order of `a` and `b`
D18's (log 17). -/
def Obligations.BadRegisterOperandIsFatal : Prop :=
  ∀ (i : Instr) (b : Byte) (s : State), i.firstBadOperand = some b →
    exec i s = .next { s with
      run := .faulted, err := some ⟨.invalidRegister, s.pc, some i.opcode, b.toNat⟩ }

/-- A handler whose register operands are all 0 to 7 cannot fail (40_fetch_decode_dispatch.md R75): it answers a next state
with ERR and the trace port as they were, and the run state too unless it is HLT's. -/
def Obligations.WellFormedHandlersComplete : Prop :=
  ∀ (i : Instr) (s : State), i.wellFormed = true →
    ∃ t, exec i s = .next t ∧ t.err = s.err ∧ t.traceOn = s.traceOn ∧ t.trace = s.trace ∧
      t.run = if i = .hlt then .halted else s.run

/-- Errors are precise (60_exceptions.md R116; D6, log 6; FAULTED with ERR is D7's, log 7): a step that ends in FAULTED has
changed no register, flag, memory cell, PC or output, and ERR names the PC. -/
def Obligations.ErrorsArePrecise : Prop :=
  ∀ s t : State, s.run = .running → step s = .next t → t.run = .faulted →
    ∃ e, t.err = some e ∧ e.pc = s.pc ∧ t.regs = s.regs ∧ t.pc = s.pc ∧ t.fl = s.fl ∧ t.mem = s.mem ∧ t.out = s.out

/-- The order of the checks (40_fetch_decode_dispatch.md R75, 60_exceptions.md R117; the order inside a stage is D18's, log
17): the fetch's range, then the lookup, then the register operands; and with none failing there is no error. The fixed
window's 254 is D2's (log 2), the operand check before the handler D5's (log 5), the error as a next state D7's (log 7). -/
def Obligations.FirstFailingCheckDecidesTheError : Prop :=
  ∀ s t : State, s.run = .running → s.err = none → step s = .next t →
    t.err.map (·.kind) =
      if 254 ≤ s.pc then some .addressing
      else match decode s.window with
        | .error _ => some .unknownOpcode
        | .ok i => if i.wellFormed then none else some .invalidRegister

/-- The PC after a step that raises no error (10_state.md R15, R16; 45_compare_and_branch.md R105): its own length added
without wrap, or the register or stack byte the instruction names, or (HLT) unchanged. The bound 253 is D2's (log 2). -/
def Obligations.HandlersMoveThePc : Prop :=
  ∀ s t : State, s.run = .running → step s = .next t → t.run ≠ .faulted →
    s.pc ≤ 253 ∧ ∃ i, decode s.window = .ok i ∧
      match i with
      | .hlt => t.pc = s.pc
      | .ret => t.pc = (s.mem.get (s.reg 7).toNat).toNat
      | .jmp a => ∃ r : Reg, a.toNat = r ∧ t.pc = (s.reg r).toNat
      | .call a => ∃ r : Reg, a.toNat = r ∧ t.pc = (t.reg r).toNat
      | .jeq a => ∃ r : Reg, a.toNat = r ∧ t.pc = if s.fl.getLsbD 0 then (s.reg r).toNat else s.pc + 2
      | .jne a => ∃ r : Reg, a.toNat = r ∧ t.pc = if s.fl.getLsbD 0 then s.pc + 2 else (s.reg r).toNat
      | .ldi _ _ | .mul _ _ | .add _ _ | .cmp _ _ => t.pc = s.pc + 3
      | .prn _ | .push _ | .pop _ => t.pc = s.pc + 2

/-! ## Load immediate, print, halt -/

/-- A register write stores its value modulo 256 and reaches no other register (10_state.md R13), for every integer, a
negative one too. -/
def Obligations.RegisterWriteTruncates : Prop :=
  ∀ (s : State) (r : Reg) (v : Int),
    (((s.setReg r v).reg r).toNat : Int) = v % 256 ∧ 0 ≤ v % 256 ∧ v % 256 ≤ 255 ∧
      ∀ q, q ≠ r → (s.setReg r v).reg q = s.reg q

/-- LDI, all of 41_load_print_halt.md R80: encoding, effect and frame, and the bad register operand. The frame: only x[a] and
the PC change. In the last clause, when the operand is checked is D5's (log 5), that nothing else has changed D6's (log 6),
FAULTED with ERR D7's (log 7). -/
def Obligations.LdiLoadsTheImmediate : Prop :=
  (∀ a b, decode ⟨0x82, a, b⟩ = .ok (.ldi a b)) ∧
  (∀ (a b : Byte) (r : Reg) (s : State), a.toNat = r →
    ∃ t, exec (.ldi a b) s = .next t ∧ t.reg r = b ∧ (∀ q, q ≠ r → t.reg q = s.reg q) ∧ t.pc = s.pc + 3 ∧ t.fl = s.fl ∧
      SameMemory s t ∧ t.out = s.out ∧ SameControl s t) ∧
  (∀ (a b : Byte) (s : State), 8 ≤ a.toNat →
    ∃ t e, exec (.ldi a b) s = .next t ∧ e.kind = .invalidRegister ∧ Failed e s t)

/-- PRN, all of 41_load_print_halt.md R81: encoding (byte `b` ignored), effect and frame, the line shown, and the bad register
operand. The frame: only OUT and the PC change. OUT as bytes and its decimal lines are D11's (log 11); in the last clause,
when the operand is checked is D5's (log 5), that nothing else has changed D6's (log 6), FAULTED with ERR D7's (log 7). -/
def Obligations.PrnAppendsToOut : Prop :=
  (∀ a b, decode ⟨0x47, a, b⟩ = .ok (.prn a)) ∧
  (∀ (a : Byte) (r : Reg) (s : State), a.toNat = r →
    ∃ t, exec (.prn a) s = .next t ∧ t.out = s.out ++ [s.reg r] ∧
      consoleLines t = consoleLines s ++ [toString (s.reg r).toNat] ∧ (∀ q, t.reg q = s.reg q) ∧ t.pc = s.pc + 2 ∧
      t.fl = s.fl ∧ SameMemory s t ∧ SameControl s t) ∧
  (∀ (a : Byte) (s : State), 8 ≤ a.toNat →
    ∃ t e, exec (.prn a) s = .next t ∧ e.kind = .invalidRegister ∧ Failed e s t)

/-- HLT, all of 41_load_print_halt.md R82: encoding (bytes `a` and `b` ignored), effect and frame, HALTED terminal, and the
last address at which it can halt, 253. The frame: only run changes. The fixed window behind the clause at 254 and 255 is D2's
(log 2); FAULTED with ERR, and a stopped core's step that changes nothing, are log 7's (D7). -/
def Obligations.HltHaltsOnItsOwnAddress : Prop :=
  (∀ a b, decode ⟨0x01, a, b⟩ = .ok .hlt) ∧
  (∀ s : State, exec .hlt s = .next { s with run := .halted }) ∧
  (∀ s : State, s.run = .running → s.mem.get s.pc = 0x01 → s.pc ≤ 253 →
    ∃ t, step s = .next t ∧ t.run = .halted ∧ t.pc = s.pc ∧ ∀ n, Runs n t t) ∧
  (∀ s : State, s.run = .running → s.mem.get s.pc = 0x01 → s.pc = 254 ∨ s.pc = 255 →
    ∃ t e, step s = .next t ∧ t.run = .faulted ∧ t.err = some e ∧ e.kind = .addressing)

/-! ## Arithmetic -/

/-- ADD, all of 42_arithmetic.md R87: encoding, effect and frame, and the bad register operands, `a` first. The frame: only
x[a] and the PC change. In the last two clauses, when the operands are checked is D5's (log 5), that nothing else has changed
D6's (log 6), FAULTED with ERR D7's (log 7), the operand byte in the record's detail D8's (log 8), that `a` decides it D18's
(log 17). -/
def Obligations.AddAddsModulo256 : Prop :=
  (∀ a b, decode ⟨0xA0, a, b⟩ = .ok (.add a b)) ∧
  (∀ (a b : Byte) (ra rb : Reg) (s : State), a.toNat = ra → b.toNat = rb →
    ∃ t, exec (.add a b) s = .next t ∧ (t.reg ra).toNat = ((s.reg ra).toNat + (s.reg rb).toNat) % 256 ∧
      (∀ q, q ≠ ra → t.reg q = s.reg q) ∧ t.pc = s.pc + 3 ∧ t.fl = s.fl ∧ SameMemory s t ∧ t.out = s.out ∧
      SameControl s t) ∧
  (∀ (a b : Byte) (s : State), 8 ≤ a.toNat →
    ∃ t e, exec (.add a b) s = .next t ∧ e.kind = .invalidRegister ∧ e.detail = a.toNat ∧ Failed e s t) ∧
  (∀ (a b : Byte) (s : State), a.toNat < 8 → 8 ≤ b.toNat →
    ∃ t e, exec (.add a b) s = .next t ∧ e.kind = .invalidRegister ∧ e.detail = b.toNat ∧ Failed e s t)

/-- MUL keeps the low byte of the product (42_arithmetic.md R85, R86); its opcode byte 0xA2 is D1's (log 1). The frame: only
x[a] and the PC change. -/
def Obligations.MulKeepsTheLowByte : Prop :=
  (∀ a b, decode ⟨0xA2, a, b⟩ = .ok (.mul a b)) ∧
  (∀ (a b : Byte) (ra rb : Reg) (s : State), a.toNat = ra → b.toNat = rb →
    ∃ t, exec (.mul a b) s = .next t ∧ (t.reg ra).toNat = ((s.reg ra).toNat * (s.reg rb).toNat) % 256 ∧
      (∀ q, q ≠ ra → t.reg q = s.reg q) ∧ t.pc = s.pc + 3 ∧ t.fl = s.fl ∧ SameMemory s t ∧ t.out = s.out ∧
      SameControl s t)

/-! ## Stack and subroutines -/

/-- PUSH (43_stack.md R90): the pointer goes down by one modulo 256 and the byte is stored there and nowhere else. PUSH R7
stores the decremented pointer (D9, log 9). The frame: only x[7], the stored byte and the PC change. -/
def Obligations.PushStoresBelowThePointer : Prop :=
  ∀ (a : Byte) (r : Reg) (s : State), a.toNat = r →
    ∃ t, exec (.push a) s = .next t ∧ t.reg 7 = s.reg 7 - 1 ∧ (∀ q, q ≠ 7 → t.reg q = s.reg q) ∧
      t.mem.get (s.reg 7 - 1).toNat = (if r = 7 then s.reg 7 - 1 else s.reg r) ∧
      (∀ c, c ≠ (s.reg 7 - 1).toNat → t.mem.get c = s.mem.get c) ∧ t.pc = s.pc + 2 ∧ t.fl = s.fl ∧ t.out = s.out ∧
      SameControl s t

/-- POP (43_stack.md R91): the byte at the pointer, then the pointer up by one modulo 256; the cell is not cleared. POP R7
leaves the loaded byte plus one (D9, log 9). The frame: only x[a], x[7] and the PC change. -/
def Obligations.PopLoadsFromThePointer : Prop :=
  ∀ (a : Byte) (r : Reg) (s : State), a.toNat = r →
    ∃ t, exec (.pop a) s = .next t ∧
      (r ≠ 7 → t.reg r = s.mem.get (s.reg 7).toNat ∧ t.reg 7 = s.reg 7 + 1) ∧
      (r = 7 → t.reg 7 = s.mem.get (s.reg 7).toNat + 1) ∧ (∀ q, q ≠ r → q ≠ 7 → t.reg q = s.reg q) ∧ SameMemory s t ∧
      t.pc = s.pc + 2 ∧ t.fl = s.fl ∧ t.out = s.out ∧ SameControl s t

/-- CALL (44_call_return.md R95): the address after the two-byte instruction is pushed, then control goes to the register's
byte; for every CALL that can be fetched (pc 0 to 253) the pushed byte is pc + 2. CALL R7 jumps to the decremented pointer
(D9, log 9). The frame: only x[7], the stored byte and the PC change. -/
def Obligations.CallPushesTheReturnAddress : Prop :=
  ∀ (a : Byte) (r : Reg) (s : State), a.toNat = r →
    ∃ t, exec (.call a) s = .next t ∧ t.pc = (if r = 7 then s.reg 7 - 1 else s.reg r).toNat ∧ t.reg 7 = s.reg 7 - 1 ∧
      (∀ q, q ≠ 7 → t.reg q = s.reg q) ∧
      (s.pc ≤ 253 → (t.mem.get (s.reg 7 - 1).toNat).toNat = s.pc + 2) ∧
      (∀ c, c ≠ (s.reg 7 - 1).toNat → t.mem.get c = s.mem.get c) ∧ t.fl = s.fl ∧ t.out = s.out ∧ SameControl s t

/-- RET (44_call_return.md R96): the byte at the pointer becomes the PC and the pointer goes up by one modulo 256. The frame:
only x[7] and the PC change. -/
def Obligations.RetPopsThePc : Prop :=
  ∀ s : State,
    ∃ t, exec .ret s = .next t ∧ t.pc = (s.mem.get (s.reg 7).toNat).toNat ∧ t.reg 7 = s.reg 7 + 1 ∧
      (∀ q, q ≠ 7 → t.reg q = s.reg q) ∧ SameMemory s t ∧ t.fl = s.fl ∧ t.out = s.out ∧ SameControl s t

/-- The round-trip law of 43_stack.md R92, for any two registers other than 7, any state between the two whose pointer and
pushed cell are those the PUSH left, and the wrapping case among the rest. -/
def Obligations.PushThenPopRestores : Prop :=
  ∀ (a c : Byte) (ra rc : Reg) (s t u : State), a.toNat = ra → c.toNat = rc → ra ≠ 7 → rc ≠ 7 →
    exec (.push a) s = .next t → u.reg 7 = t.reg 7 → u.mem.get (t.reg 7).toNat = t.mem.get (t.reg 7).toNat →
    ∃ v, exec (.pop c) u = .next v ∧ v.reg rc = s.reg ra ∧ v.reg 7 = s.reg 7

/-- The call convention of 44_call_return.md R97: a RET that finds the pointer and the return cell as the CALL left them
returns to the byte after the CALL with x[7] as before the CALL. -/
def Obligations.CallThenRetReturns : Prop :=
  ∀ (a : Byte) (r : Reg) (s t u : State), a.toNat = r → s.pc ≤ 253 →
    exec (.call a) s = .next t → u.reg 7 = t.reg 7 → u.mem.get (t.reg 7).toNat = t.mem.get (t.reg 7).toNat →
    ∃ v, exec .ret u = .next v ∧ v.pc = s.pc + 2 ∧ v.reg 7 = s.reg 7

/-! ## Compare and branch -/

/-- CMP (45_compare_and_branch.md R100): FL is overwritten with exactly one of E, L, G by the unsigned order of the two
registers. Which of L and G is which is D10's (log 10). The frame: only FL and the PC change. -/
def Obligations.CmpOverwritesTheFlags : Prop :=
  ∀ (a b : Byte) (ra rb : Reg) (s : State), a.toNat = ra → b.toNat = rb →
    ∃ t, exec (.cmp a b) s = .next t ∧ (s.reg ra = s.reg rb → t.fl = 0x01) ∧
      ((s.reg ra).toNat < (s.reg rb).toNat → t.fl = 0x04) ∧ ((s.reg rb).toNat < (s.reg ra).toNat → t.fl = 0x02) ∧
      (∀ q, t.reg q = s.reg q) ∧ t.pc = s.pc + 3 ∧ SameMemory s t ∧ t.out = s.out ∧ SameControl s t

/-- JMP (45_compare_and_branch.md R101), for every register and target byte, 254 and 255 too. The frame: only the PC
changes. -/
def Obligations.JmpSetsThePc : Prop :=
  ∀ (a : Byte) (r : Reg) (s : State), a.toNat = r → exec (.jmp a) s = .next { s with pc := (s.reg r).toNat }

/-- JEQ and JNE (45_compare_and_branch.md R102, R103): bit E decides, the two are exact complements, and G and L do not
matter. The frame: only the PC changes. -/
def Obligations.ConditionalJumpsAreComplements : Prop :=
  ∀ (a : Byte) (r : Reg) (s : State), a.toNat = r →
    (s.fl.getLsbD 0 = true → exec (.jeq a) s = .next { s with pc := (s.reg r).toNat } ∧
      exec (.jne a) s = .next { s with pc := s.pc + 2 }) ∧
    (s.fl.getLsbD 0 = false → exec (.jeq a) s = .next { s with pc := s.pc + 2 } ∧
      exec (.jne a) s = .next { s with pc := (s.reg r).toNat })

/-- The law of 45_compare_and_branch.md R104, with any instructions other than CMP in between: JEQ jumps exactly when the two
registers were equal at the CMP, JNE exactly when they were not. -/
def Obligations.CmpDecidesTheLaterJump : Prop :=
  ∀ (a b c : Byte) (ra rb rc : Reg) (between : List Instr) (s t u : State),
    a.toNat = ra → b.toNat = rb → c.toNat = rc → exec (.cmp a b) s = .next t →
    (∀ x y, Instr.cmp x y ∉ between) → execAll between t = .next u →
    ∃ v w, exec (.jeq c) u = .next v ∧ exec (.jne c) u = .next w ∧
      v.pc = (if s.reg ra = s.reg rb then (u.reg rc).toNat else u.pc + 2) ∧
      w.pc = (if s.reg ra = s.reg rb then u.pc + 2 else (u.reg rc).toNat)

/-! ## Rules of the whole machine -/

/-- FL is set only by CMP (10_state.md R18). -/
def Obligations.OnlyCmpChangesTheFlags : Prop :=
  ∀ s t : State, step s = .next t → t.fl ≠ s.fl →
    s.run = .running ∧ s.pc ≤ 253 ∧ ∃ a b, decode s.window = .ok (.cmp a b)

/-- Only PUSH and CALL write memory, one cell, just below the stack pointer (20_memory.md R33; 90_conflicts.md C2). -/
def Obligations.OnlyPushAndCallWriteMemory : Prop :=
  ∀ (s t : State) (c : Nat), step s = .next t → t.mem.get c ≠ s.mem.get c →
    s.run = .running ∧ c = (s.reg 7 - 1).toNat ∧
      ∃ a, decode s.window = .ok (.push a) ∨ decode s.window = .ok (.call a)

/-- Which instruction changes which register (10_state.md R10; 90_conflicts.md C3): the one operand `a` names for LDI, MUL,
ADD and POP, and x[7] for PUSH, POP, CALL and RET. -/
def Obligations.OnlyNamedRegistersChange : Prop :=
  ∀ (s t : State) (r : Reg), step s = .next t → t.reg r ≠ s.reg r →
    ∃ i, decode s.window = .ok i ∧
      ((∃ a b : Byte, a.toNat = r ∧ (i = .ldi a b ∨ i = .mul a b ∨ i = .add a b ∨ i = .pop a)) ∨
        (r = 7 ∧ ∃ a : Byte, i = .push a ∨ i = .pop a ∨ i = .call a ∨ i = .ret))

/-- OUT changes only by a PRN's append (10_state.md R21; OUT as a list of bytes is D11's, log 11). -/
def Obligations.OnlyPrnAppendsToOut : Prop :=
  ∀ s t : State, step s = .next t → t.out ≠ s.out →
    ∃ (a : Byte) (r : Reg), decode s.window = .ok (.prn a) ∧ a.toNat = r ∧ t.out = s.out ++ [s.reg r]

/-- A byte a PUSH stores at the next opcode's address is the opcode the very next step fetches, and a PUSH elsewhere leaves
that opcode alone (20_memory.md R40). -/
def Obligations.NextFetchSeesThePushedByte : Prop :=
  ∀ (a : Byte) (r : Reg) (s t : State), s.run = .running → s.pc ≤ 253 → decode s.window = .ok (.push a) →
    a.toNat = r → r ≠ 7 → step s = .next t →
    t.window.opcode = if (s.reg 7 - 1).toNat = s.pc + 2 then s.reg r else s.mem.get (s.pc + 2)

/-- Every step keeps the invariant, from every state that meets it. -/
def Obligations.EveryStepKeepsTheInvariant : Prop := ∀ s t : State, Inv s → step s = .next t → Inv t

/-- Along every run: the invariant holds, and ERR once written is the end of the run (10_state.md R20: "written once, by the
first and only error"). -/
def Obligations.RunsKeepTheInvariantAndTheFirstError : Prop :=
  ∀ (n : Nat) (s t : State), Inv s → Runs n s t → Inv t ∧ ∀ e, s.err = some e → t = s

/-- Along every run OUT only grows at its end (10_state.md R21, "in execution order"; OUT as a list of bytes is
D11's, log 11). -/
def Obligations.OutputOnlyGrowsAlongRuns : Prop := ∀ (n : Nat) (s t : State), Runs n s t → s.out <+: t.out

/-- The trace changes no architectural state (40_fetch_decode_dispatch.md R77): two cores alike but for the trace port stay
alike. The trace port's form is D15's and the model's (log 14). -/
def Obligations.TraceChangesNoArchitecturalState : Prop :=
  ∀ s s' t t' : State, SameArch s s' → step s = .next t → step s' = .next t' → SameArch t t'

/-- The trace port delivers exactly one record for each step whose fetch succeeds while it is on, with the registers before
the handler, an unknown opcode's step too, and none otherwise (40_fetch_decode_dispatch.md R77; D15, log 14). -/
def Obligations.TraceDeliversOneRecordPerFetch : Prop :=
  ∀ s t : State, step s = .next t →
    t.traceOn = s.traceOn ∧
    t.trace = s.trace ++
      if s.run = .running ∧ s.pc ≤ 253 ∧ s.traceOn = true then
        [⟨s.pc, s.mem.get s.pc, s.mem.get (s.pc + 1), s.mem.get (s.pc + 2), s.regs⟩]
      else []

/-- The host's placing of an instruction word: where a window can be fetched at all, the very next step runs exactly the
instruction the decoder reads from the word (the model's interface, log 12). -/
def Obligations.PlacedWordRunsNext : Prop :=
  ∀ (s : State) (nbits w : Nat) (i : Instr), s.pc ≤ 253 → s.traceOn = false → decodeTableWord nbits w = some i →
    ∃ s', s.withFetchWord nbits w = s' ∧ step s' = exec i s' ∧ s'.run = .running ∧ s'.regs = s.regs ∧ s'.pc = s.pc ∧
      s'.fl = s.fl ∧ s'.out = s.out ∧ s'.err = s.err ∧ ∀ c, c < s.pc ∨ s.pc + 2 < c → s'.mem.get c = s.mem.get c
end

