-- ==== Sys2Proof/Laws/Decode.lean ====
section
/-! SUPPORT. The decoder: everything it can answer, one case per row of the Instruction Table. -/

namespace Sys2Proof

/-- A successful lookup is one of the thirteen rows, under its own opcode byte. -/
theorem lookup_some {o : Byte} {row : TableRow} (h : lookup o = some row) : row ∈ instructionTable ∧ row.opcode = o := by
  unfold lookup at h
  exact ⟨List.mem_of_find?_eq_some h, by simpa using List.find?_some h⟩

/-- What decoding a window to an instruction says of the window: the opcode byte is the instruction's and the operand bytes
are the window's (R51, R55). -/
theorem decode_ok {w : Window} {i : Instr} (h : decode w = .ok i) : i.opcode = w.opcode ∧ i.operands <+: [w.a, w.b] := by
  unfold decode at h
  cases hl : lookup w.opcode with
  | none => rw [hl] at h; cases h
  | some row =>
    rw [hl] at h
    injection h with h
    obtain ⟨hmem, ho⟩ := lookup_some hl
    subst h
    rw [← ho]
    simp only [instructionTable, List.mem_cons, List.not_mem_nil, or_false] at hmem
    rcases hmem with h | h | h | h | h | h | h | h | h | h | h | h | h <;> subst h <;> exact ⟨rfl, by simp [Instr.operands]⟩

/-- What a rejection says of the window: the opcode byte, named, has no row (R55, R72). -/
theorem decode_error {w : Window} {e : DecodeError} (h : decode w = .error e) :
    lookup w.opcode = none ∧ e = .unknownOpcode w.opcode := by
  unfold decode at h
  cases hl : lookup w.opcode with
  | none => rw [hl] at h; injection h with h; exact ⟨rfl, h.symm⟩
  | some row => rw [hl] at h; cases h

end Sys2Proof
end

