-- ==== Sys2Proof/Laws/Memory.lean ====
section
/-! SUPPORT. Memory: read after write, and that every memory operation keeps the canonical form. -/

namespace Sys2Proof.Machine

open Sys2Proof

@[simp] theorem Memory.get_nil (a : Nat) : Memory.get [] a = 0 := rfl

theorem Memory.get_insert (m : Memory) (a : Nat) (v : Byte) (c : Nat) :
    (m.insert a v).get c = if c = a then v else m.get c := by
  induction m with
  | nil => simp [Memory.insert, Memory.get, eq_comm]
  | cons cell rest ih =>
    obtain ⟨k, w⟩ := cell
    unfold Memory.insert
    by_cases hlt : a < k
    · simp [hlt, Memory.get, eq_comm]
    · by_cases heq : a = k
      · subst heq
        by_cases hc : c = a
        · simp [Memory.get, hc]
        · simp [Memory.get, hc, Ne.symm hc]
      · simp only [hlt, heq, if_false, Memory.get, ih]
        by_cases hk : k = c
        · subst hk; simp [Ne.symm heq]
        · simp [hk]

theorem Memory.get_erase (m : Memory) (a c : Nat) : (m.erase a).get c = if c = a then 0 else m.get c := by
  induction m with
  | nil => simp [Memory.erase]
  | cons cell rest ih =>
    obtain ⟨k, w⟩ := cell
    unfold Memory.erase
    by_cases hk : k = a
    · subst hk
      rw [if_pos rfl, ih]
      by_cases hc : c = k
      · simp [hc]
      · simp [hc, Memory.get, Ne.symm hc]
    · simp only [hk, if_false, Memory.get, ih]
      by_cases hkc : k = c
      · subst hkc; simp [hk]
      · simp [hkc]

/-- A write gives its cell the byte and leaves every other cell alone (20_memory.md R32). -/
theorem Memory.get_set (m : Memory) (a : Nat) (v : Byte) (c : Nat) :
    (m.set a v).get c = if c = a then v else m.get c := by
  unfold Memory.set
  split
  · next h => rw [Memory.get_erase, h]
  · exact Memory.get_insert m a v c

@[simp] theorem Memory.get_set_same (m : Memory) (a : Nat) (v : Byte) : (m.set a v).get a = v := by
  simp [Memory.get_set]

theorem Memory.get_set_ne (m : Memory) {a c : Nat} (v : Byte) (h : c ≠ a) : (m.set a v).get c = m.get c := by
  simp [Memory.get_set, h]

theorem Memory.wfFrom_mono {m : Memory} {lo lo' : Nat} (hle : lo' ≤ lo) (h : Memory.wfFrom lo m = true) :
    Memory.wfFrom lo' m = true := by
  cases m with
  | nil => rfl
  | cons cell rest =>
    obtain ⟨k, v⟩ := cell
    simp only [Memory.wfFrom, Bool.and_eq_true, decide_eq_true_eq] at h ⊢
    exact ⟨⟨⟨by omega, h.1.1.2⟩, h.1.2⟩, h.2⟩

theorem Memory.insert_wfFrom (m : Memory) (lo a : Nat) (v : Byte) (hlo : lo ≤ a) (ha : a < 256) (hv : v ≠ 0)
    (h : Memory.wfFrom lo m = true) : Memory.wfFrom lo (m.insert a v) = true := by
  induction m generalizing lo with
  | nil =>
    simp only [Memory.insert, Memory.wfFrom, Bool.and_eq_true, decide_eq_true_eq]
    exact ⟨⟨⟨hlo, ha⟩, hv⟩, trivial⟩
  | cons cell rest ih =>
    obtain ⟨k, w⟩ := cell
    simp only [Memory.wfFrom, Bool.and_eq_true, decide_eq_true_eq] at h
    obtain ⟨⟨⟨h1, h2⟩, h3⟩, h4⟩ := h
    unfold Memory.insert
    split
    · next hlt => simp only [Memory.wfFrom, Bool.and_eq_true, decide_eq_true_eq]
                  exact ⟨⟨⟨hlo, ha⟩, hv⟩, ⟨⟨⟨by omega, h2⟩, h3⟩, h4⟩⟩
    · split
      · next heq => subst heq
                    simp only [Memory.wfFrom, Bool.and_eq_true, decide_eq_true_eq]
                    exact ⟨⟨⟨hlo, ha⟩, hv⟩, h4⟩
      · simp only [Memory.wfFrom, Bool.and_eq_true, decide_eq_true_eq]
        exact ⟨⟨⟨h1, h2⟩, h3⟩, ih (k + 1) (by omega) h4⟩

theorem Memory.erase_wfFrom (m : Memory) (lo a : Nat) (h : Memory.wfFrom lo m = true) :
    Memory.wfFrom lo (m.erase a) = true := by
  induction m generalizing lo with
  | nil => rfl
  | cons cell rest ih =>
    obtain ⟨k, w⟩ := cell
    simp only [Memory.wfFrom, Bool.and_eq_true, decide_eq_true_eq] at h
    obtain ⟨⟨⟨h1, h2⟩, h3⟩, h4⟩ := h
    unfold Memory.erase
    split
    · exact ih lo (Memory.wfFrom_mono (by omega) h4)
    · simp only [Memory.wfFrom, Bool.and_eq_true, decide_eq_true_eq]
      exact ⟨⟨⟨h1, h2⟩, h3⟩, ih (k + 1) h4⟩

/-- A write to an address that exists keeps the canonical form. -/
theorem Memory.set_wf {m : Memory} {a : Nat} (v : Byte) (ha : a < 256) (h : m.wf = true) : (m.set a v).wf = true := by
  unfold Memory.set
  split
  · exact Memory.erase_wfFrom m 0 a h
  · next hv => exact Memory.insert_wfFrom m 0 a v (Nat.zero_le _) ha hv h

/-- MemRead in range (R31). -/
theorem memRead_in (m : Memory) {addr : Nat} (h : addr < 256) : memRead m addr = .ok (m.get addr) := by
  simp [memRead, h]

/-- MemRead out of range (R31). -/
theorem memRead_out (m : Memory) {addr : Nat} (h : 256 ≤ addr) : memRead m addr = .error addr := by
  simp [memRead]; omega

/-- A byte is always a valid address, so a data read never fails (R44). -/
theorem memRead_byte (m : Memory) (b : Byte) : memRead m b.toNat = .ok (m.get b.toNat) := memRead_in m b.isLt

/-- A byte is always a valid address, so a data write never fails (R44). -/
theorem memWrite_byte (m : Memory) (b v : Byte) : memWrite m b.toNat v = .ok (m.set b.toNat v) :=
  if_pos b.isLt

/-- Everything MemWrite can do (R32). -/
theorem memWrite_ok {m m' : Memory} {addr : Nat} {v : Byte} (h : memWrite m addr v = .ok m') :
    addr < 256 ∧ m' = m.set addr v := by
  unfold memWrite at h
  split at h
  · next hlt => exact ⟨hlt, by injection h with h; exact h.symm⟩
  · cases h

/-- Writing a run of bytes succeeds exactly when it fits. -/
theorem memWriteAll_fits (m : Memory) (addr : Nat) (img : List Byte) (h : addr + img.length ≤ 256) :
    ∃ m', memWriteAll m addr img = .ok m' := by
  induction img generalizing m addr with
  | nil => exact ⟨m, rfl⟩
  | cons v rest ih =>
    simp only [List.length_cons] at h
    have hlt : addr < 256 := by omega
    obtain ⟨m', hm'⟩ := ih (m.set addr v) (addr + 1) (by omega)
    exact ⟨m', by simp [memWriteAll, memWrite, hlt, hm']⟩

/-- What a run of written bytes reads as, each byte at its own address, and nothing else changed. -/
theorem memWriteAll_get {m m' : Memory} {addr : Nat} {img : List Byte} (h : memWriteAll m addr img = .ok m') (c : Nat) :
    m'.get c = if addr ≤ c then img[c - addr]?.getD (m.get c) else m.get c := by
  induction img generalizing m addr with
  | nil => simp only [memWriteAll, Except.ok.injEq] at h; subst h; simp
  | cons v rest ih =>
    unfold memWriteAll at h
    split at h
    · next m1 h1 =>
      obtain ⟨hlt, rfl⟩ := memWrite_ok h1
      rw [ih h]
      rcases Nat.lt_trichotomy c addr with hc | hc | hc
      · simp [show ¬ addr + 1 ≤ c by omega, show ¬ addr ≤ c by omega, Memory.get_set_ne _ _ (Nat.ne_of_lt hc)]
      · subst hc; simp
      · have hsub : c - addr = (c - (addr + 1)) + 1 := by omega
        simp [show addr + 1 ≤ c by omega, show addr ≤ c by omega, hsub, Memory.get_set_ne _ _ (Nat.ne_of_gt hc)]
    · cases h

/-- Writing a run of bytes keeps the canonical form. -/
theorem memWriteAll_wf {m m' : Memory} {addr : Nat} {img : List Byte} (h : memWriteAll m addr img = .ok m')
    (hm : m.wf = true) : m'.wf = true := by
  induction img generalizing m addr with
  | nil => simp only [memWriteAll, Except.ok.injEq] at h; exact h ▸ hm
  | cons v rest ih =>
    unfold memWriteAll at h
    split at h
    · next m1 h1 =>
      obtain ⟨hlt, rfl⟩ := memWrite_ok h1
      exact ih h (Memory.set_wf v hlt hm)
    · cases h

/-- A run of bytes that does not fit is refused. -/
theorem memWriteAll_long (m : Memory) (addr : Nat) (img : List Byte) (ha : addr ≤ 256) (h : 256 < addr + img.length) :
    ∃ e, memWriteAll m addr img = .error e := by
  induction img generalizing m addr with
  | nil => simp at h; omega
  | cons v rest ih =>
    simp only [List.length_cons] at h
    by_cases hlt : addr < 256
    · obtain ⟨e, he⟩ := ih (m.set addr v) (addr + 1) (by omega) (by omega)
      exact ⟨e, by simp [memWriteAll, memWrite, hlt, he]⟩
    · exact ⟨addr, by simp [memWriteAll, memWrite, hlt]⟩

/-- The stack store keeps the canonical form: its address is a byte (R44). -/
theorem State.storeAtSp_wf (s : State) (v : Byte) (h : s.mem.wf = true) : (s.storeAtSp v).mem.wf = true :=
  Memory.set_wf v s.sp.isLt h

/-- Memory at reset is in canonical form. -/
theorem State.reset_mem_wf : State.reset.mem.wf = true := rfl

end Sys2Proof.Machine
end

