-- ==== Sys2Proof/Laws/State.lean ====
section
/-! SUPPORT. One lemma per field per update of State: what each update of Machine/Ops.lean and Machine/Flags.lean leaves in
each field. No later proof unfolds a record update. -/

namespace Sys2Proof.Machine

open Sys2Proof

variable (s : State)

@[simp] theorem State.setReg_regs (r : Reg) (v : Int) : (s.setReg r v).regs = s.regs.set r (trunc8 v) := rfl
@[simp] theorem State.setReg_pc (r : Reg) (v : Int) : (s.setReg r v).pc = s.pc := rfl
@[simp] theorem State.setReg_fl (r : Reg) (v : Int) : (s.setReg r v).fl = s.fl := rfl
@[simp] theorem State.setReg_mem (r : Reg) (v : Int) : (s.setReg r v).mem = s.mem := rfl
@[simp] theorem State.setReg_run (r : Reg) (v : Int) : (s.setReg r v).run = s.run := rfl
@[simp] theorem State.setReg_out (r : Reg) (v : Int) : (s.setReg r v).out = s.out := rfl
@[simp] theorem State.setReg_err (r : Reg) (v : Int) : (s.setReg r v).err = s.err := rfl
@[simp] theorem State.setReg_traceOn (r : Reg) (v : Int) : (s.setReg r v).traceOn = s.traceOn := rfl
@[simp] theorem State.setReg_trace (r : Reg) (v : Int) : (s.setReg r v).trace = s.trace := rfl

@[simp] theorem State.decSp_regs : s.decSp.regs = s.regs.set Config.spIndex (trunc8 (s.val Config.spIndex - 1)) := rfl
@[simp] theorem State.decSp_pc : s.decSp.pc = s.pc := rfl
@[simp] theorem State.decSp_fl : s.decSp.fl = s.fl := rfl
@[simp] theorem State.decSp_mem : s.decSp.mem = s.mem := rfl
@[simp] theorem State.decSp_run : s.decSp.run = s.run := rfl
@[simp] theorem State.decSp_out : s.decSp.out = s.out := rfl
@[simp] theorem State.decSp_err : s.decSp.err = s.err := rfl
@[simp] theorem State.decSp_traceOn : s.decSp.traceOn = s.traceOn := rfl
@[simp] theorem State.decSp_trace : s.decSp.trace = s.trace := rfl

@[simp] theorem State.incSp_regs : s.incSp.regs = s.regs.set Config.spIndex (trunc8 (s.val Config.spIndex + 1)) := rfl
@[simp] theorem State.incSp_pc : s.incSp.pc = s.pc := rfl
@[simp] theorem State.incSp_fl : s.incSp.fl = s.fl := rfl
@[simp] theorem State.incSp_mem : s.incSp.mem = s.mem := rfl
@[simp] theorem State.incSp_run : s.incSp.run = s.run := rfl
@[simp] theorem State.incSp_out : s.incSp.out = s.out := rfl
@[simp] theorem State.incSp_err : s.incSp.err = s.err := rfl
@[simp] theorem State.incSp_traceOn : s.incSp.traceOn = s.traceOn := rfl
@[simp] theorem State.incSp_trace : s.incSp.trace = s.trace := rfl

@[simp] theorem State.setPc_regs (t : Nat) : (s.setPc t).regs = s.regs := rfl
@[simp] theorem State.setPc_pc (t : Nat) : (s.setPc t).pc = t := rfl
@[simp] theorem State.setPc_fl (t : Nat) : (s.setPc t).fl = s.fl := rfl
@[simp] theorem State.setPc_mem (t : Nat) : (s.setPc t).mem = s.mem := rfl
@[simp] theorem State.setPc_run (t : Nat) : (s.setPc t).run = s.run := rfl
@[simp] theorem State.setPc_out (t : Nat) : (s.setPc t).out = s.out := rfl
@[simp] theorem State.setPc_err (t : Nat) : (s.setPc t).err = s.err := rfl
@[simp] theorem State.setPc_traceOn (t : Nat) : (s.setPc t).traceOn = s.traceOn := rfl
@[simp] theorem State.setPc_trace (t : Nat) : (s.setPc t).trace = s.trace := rfl

@[simp] theorem State.addPc_regs (n : Nat) : (s.addPc n).regs = s.regs := rfl
@[simp] theorem State.addPc_pc (n : Nat) : (s.addPc n).pc = s.pc + n := rfl
@[simp] theorem State.addPc_fl (n : Nat) : (s.addPc n).fl = s.fl := rfl
@[simp] theorem State.addPc_mem (n : Nat) : (s.addPc n).mem = s.mem := rfl
@[simp] theorem State.addPc_run (n : Nat) : (s.addPc n).run = s.run := rfl
@[simp] theorem State.addPc_out (n : Nat) : (s.addPc n).out = s.out := rfl
@[simp] theorem State.addPc_err (n : Nat) : (s.addPc n).err = s.err := rfl
@[simp] theorem State.addPc_traceOn (n : Nat) : (s.addPc n).traceOn = s.traceOn := rfl
@[simp] theorem State.addPc_trace (n : Nat) : (s.addPc n).trace = s.trace := rfl

@[simp] theorem State.setFl_regs (v : Byte) : (s.setFl v).regs = s.regs := rfl
@[simp] theorem State.setFl_pc (v : Byte) : (s.setFl v).pc = s.pc := rfl
@[simp] theorem State.setFl_fl (v : Byte) : (s.setFl v).fl = v &&& flDefined := rfl
@[simp] theorem State.setFl_mem (v : Byte) : (s.setFl v).mem = s.mem := rfl
@[simp] theorem State.setFl_run (v : Byte) : (s.setFl v).run = s.run := rfl
@[simp] theorem State.setFl_out (v : Byte) : (s.setFl v).out = s.out := rfl
@[simp] theorem State.setFl_err (v : Byte) : (s.setFl v).err = s.err := rfl
@[simp] theorem State.setFl_traceOn (v : Byte) : (s.setFl v).traceOn = s.traceOn := rfl
@[simp] theorem State.setFl_trace (v : Byte) : (s.setFl v).trace = s.trace := rfl

@[simp] theorem State.storeAtSp_regs (v : Byte) : (s.storeAtSp v).regs = s.regs := rfl
@[simp] theorem State.storeAtSp_pc (v : Byte) : (s.storeAtSp v).pc = s.pc := rfl
@[simp] theorem State.storeAtSp_fl (v : Byte) : (s.storeAtSp v).fl = s.fl := rfl
@[simp] theorem State.storeAtSp_mem (v : Byte) : (s.storeAtSp v).mem = s.mem.set s.sp.toNat v := rfl
@[simp] theorem State.storeAtSp_run (v : Byte) : (s.storeAtSp v).run = s.run := rfl
@[simp] theorem State.storeAtSp_out (v : Byte) : (s.storeAtSp v).out = s.out := rfl
@[simp] theorem State.storeAtSp_err (v : Byte) : (s.storeAtSp v).err = s.err := rfl
@[simp] theorem State.storeAtSp_traceOn (v : Byte) : (s.storeAtSp v).traceOn = s.traceOn := rfl
@[simp] theorem State.storeAtSp_trace (v : Byte) : (s.storeAtSp v).trace = s.trace := rfl

@[simp] theorem State.emit_regs (v : Byte) : (s.emit v).regs = s.regs := rfl
@[simp] theorem State.emit_pc (v : Byte) : (s.emit v).pc = s.pc := rfl
@[simp] theorem State.emit_fl (v : Byte) : (s.emit v).fl = s.fl := rfl
@[simp] theorem State.emit_mem (v : Byte) : (s.emit v).mem = s.mem := rfl
@[simp] theorem State.emit_run (v : Byte) : (s.emit v).run = s.run := rfl
@[simp] theorem State.emit_out (v : Byte) : (s.emit v).out = s.out ++ [v] := rfl
@[simp] theorem State.emit_err (v : Byte) : (s.emit v).err = s.err := rfl
@[simp] theorem State.emit_traceOn (v : Byte) : (s.emit v).traceOn = s.traceOn := rfl
@[simp] theorem State.emit_trace (v : Byte) : (s.emit v).trace = s.trace := rfl

@[simp] theorem State.halt_regs : s.halt.regs = s.regs := rfl
@[simp] theorem State.halt_pc : s.halt.pc = s.pc := rfl
@[simp] theorem State.halt_fl : s.halt.fl = s.fl := rfl
@[simp] theorem State.halt_mem : s.halt.mem = s.mem := rfl
@[simp] theorem State.halt_run : s.halt.run = .halted := rfl
@[simp] theorem State.halt_out : s.halt.out = s.out := rfl
@[simp] theorem State.halt_err : s.halt.err = s.err := rfl
@[simp] theorem State.halt_traceOn : s.halt.traceOn = s.traceOn := rfl
@[simp] theorem State.halt_trace : s.halt.trace = s.trace := rfl

@[simp] theorem State.raise_regs (e : ErrorRecord) : (s.raise e).regs = s.regs := rfl
@[simp] theorem State.raise_pc (e : ErrorRecord) : (s.raise e).pc = s.pc := rfl
@[simp] theorem State.raise_fl (e : ErrorRecord) : (s.raise e).fl = s.fl := rfl
@[simp] theorem State.raise_mem (e : ErrorRecord) : (s.raise e).mem = s.mem := rfl
@[simp] theorem State.raise_run (e : ErrorRecord) : (s.raise e).run = .faulted := rfl
@[simp] theorem State.raise_out (e : ErrorRecord) : (s.raise e).out = s.out := rfl
@[simp] theorem State.raise_err (e : ErrorRecord) : (s.raise e).err = some e := rfl
@[simp] theorem State.raise_traceOn (e : ErrorRecord) : (s.raise e).traceOn = s.traceOn := rfl
@[simp] theorem State.raise_trace (e : ErrorRecord) : (s.raise e).trace = s.trace := rfl

/-! The trace port: a delivery changes the trace alone (R77). -/

@[simp] theorem State.deliverTrace_regs (w : Window) : (s.deliverTrace w).regs = s.regs := by
  unfold State.deliverTrace; split <;> rfl
@[simp] theorem State.deliverTrace_pc (w : Window) : (s.deliverTrace w).pc = s.pc := by
  unfold State.deliverTrace; split <;> rfl
@[simp] theorem State.deliverTrace_fl (w : Window) : (s.deliverTrace w).fl = s.fl := by
  unfold State.deliverTrace; split <;> rfl
@[simp] theorem State.deliverTrace_mem (w : Window) : (s.deliverTrace w).mem = s.mem := by
  unfold State.deliverTrace; split <;> rfl
@[simp] theorem State.deliverTrace_run (w : Window) : (s.deliverTrace w).run = s.run := by
  unfold State.deliverTrace; split <;> rfl
@[simp] theorem State.deliverTrace_out (w : Window) : (s.deliverTrace w).out = s.out := by
  unfold State.deliverTrace; split <;> rfl
@[simp] theorem State.deliverTrace_err (w : Window) : (s.deliverTrace w).err = s.err := by
  unfold State.deliverTrace; split <;> rfl
@[simp] theorem State.deliverTrace_traceOn (w : Window) : (s.deliverTrace w).traceOn = s.traceOn := by
  unfold State.deliverTrace; split <;> rfl

theorem State.deliverTrace_trace (w : Window) : (s.deliverTrace w).trace =
    if s.traceOn then s.trace ++ [⟨s.pc, w.opcode, w.a, w.b, s.regs⟩] else s.trace := by
  unfold State.deliverTrace; split <;> rfl

theorem State.deliverTrace_off (w : Window) (h : s.traceOn = false) : s.deliverTrace w = s := by
  simp [State.deliverTrace, h]

end Sys2Proof.Machine
end

