-- ==== Sys2Proof/Laws/Ops.lean ====
section
/-! SUPPORT. One spec lemma per shared operation: trunc8, registers, the stack pointer, operands, flags, decoding, the fetch,
and the step. -/

namespace Sys2Proof.Machine

open Sys2Proof

/-! ## trunc8 and registers -/

/-- trunc8 is reduction modulo 256 (00_scope.md R5). -/
theorem trunc8_toNat (v : Int) : ((trunc8 v).toNat : Int) = v % 256 := by
  unfold trunc8
  rw [BitVec.toNat_ofInt]
  have h := Int.emod_nonneg v (show (256 : Int) ≠ 0 by decide)
  simpa using h

@[simp] theorem trunc8_byte (b : Byte) : trunc8 (b.toNat : Int) = b := by
  apply BitVec.eq_of_toNat_eq
  have h := trunc8_toNat (b.toNat : Int)
  have hb := b.isLt
  omega

/-- A register write reaches its register and no other (10_state.md R13). -/
theorem State.reg_setReg (s : State) (r : Reg) (v : Int) (q : Reg) :
    (s.setReg r v).reg q = if q = r then trunc8 v else s.reg q := by
  unfold State.reg
  rw [State.setReg_regs]
  simp only [Fin.getElem_fin, Vector.getElem_set]
  by_cases h : q = r
  · subst h; simp
  · have hv : ¬ r.val = q.val := fun e => h (Fin.ext e.symm)
    simp [h, hv]

@[simp] theorem State.reg_setReg_same (s : State) (r : Reg) (v : Int) : (s.setReg r v).reg r = trunc8 v := by
  simp [State.reg_setReg]

theorem State.reg_setReg_ne (s : State) {r q : Reg} (v : Int) (h : q ≠ r) : (s.setReg r v).reg q = s.reg q := by
  simp [State.reg_setReg, h]

/-- Registers are read from the register file alone. -/
theorem State.reg_congr {s t : State} (h : t.regs = s.regs) (r : Reg) : t.reg r = s.reg r := by
  simp [State.reg, h]

@[simp] theorem State.reg_setPc (s : State) (t : Nat) (r : Reg) : (s.setPc t).reg r = s.reg r := rfl
@[simp] theorem State.reg_addPc (s : State) (n : Nat) (r : Reg) : (s.addPc n).reg r = s.reg r := rfl
@[simp] theorem State.reg_setFl (s : State) (v : Byte) (r : Reg) : (s.setFl v).reg r = s.reg r := rfl
@[simp] theorem State.reg_storeAtSp (s : State) (v : Byte) (r : Reg) : (s.storeAtSp v).reg r = s.reg r := rfl
@[simp] theorem State.reg_emit (s : State) (v : Byte) (r : Reg) : (s.emit v).reg r = s.reg r := rfl
@[simp] theorem State.reg_halt (s : State) (r : Reg) : s.halt.reg r = s.reg r := rfl
@[simp] theorem State.reg_raise (s : State) (e : ErrorRecord) (r : Reg) : (s.raise e).reg r = s.reg r := rfl

@[simp] theorem State.reg_deliverTrace (s : State) (w : Window) (r : Reg) : (s.deliverTrace w).reg r = s.reg r :=
  State.reg_congr (s.deliverTrace_regs w) r

/-! ## The stack pointer -/

theorem trunc8_sub_one (b : Byte) : trunc8 ((b.toNat : Int) - 1) = b - 1 := by
  apply BitVec.eq_of_toNat_eq
  have h := trunc8_toNat ((b.toNat : Int) - 1)
  have hb := b.isLt
  rw [BitVec.toNat_sub]
  change ((trunc8 ((b.toNat : Int) - 1)).toNat) = (2 ^ 8 - 1 + b.toNat) % 2 ^ 8
  omega

theorem trunc8_add_one (b : Byte) : trunc8 ((b.toNat : Int) + 1) = b + 1 := by
  apply BitVec.eq_of_toNat_eq
  have h := trunc8_toNat ((b.toNat : Int) + 1)
  have hb := b.isLt
  rw [BitVec.toNat_add]
  change ((trunc8 ((b.toNat : Int) + 1)).toNat) = (b.toNat + 1) % 2 ^ 8
  omega

/-- The decrement reaches x[7] alone and wraps (R90). -/
theorem State.reg_decSp (s : State) (q : Reg) : s.decSp.reg q = if q = 7 then s.reg 7 - 1 else s.reg q := by
  unfold State.decSp
  rw [State.reg_setReg, State.val, trunc8_sub_one]

/-- The increment reaches x[7] alone and wraps (R91). -/
theorem State.reg_incSp (s : State) (q : Reg) : s.incSp.reg q = if q = 7 then s.reg 7 + 1 else s.reg q := by
  unfold State.incSp
  rw [State.reg_setReg, State.val, trunc8_add_one]

theorem State.sp_eq (s : State) : s.sp = s.reg 7 := rfl

@[simp] theorem State.sp_decSp (s : State) : s.decSp.sp = s.sp - 1 := by
  simp [State.sp_eq, State.reg_decSp]

@[simp] theorem State.sp_incSp (s : State) : s.incSp.sp = s.sp + 1 := by
  simp [State.sp_eq, State.reg_incSp]

/-- The pre-decremented store of PUSH and CALL: one cell, just below the old pointer (R90, R95). -/
theorem State.mem_pushed (s : State) (v : Byte) : (s.decSp.storeAtSp v).mem = s.mem.set (s.reg 7 - 1).toNat v := by
  rw [State.storeAtSp_mem, State.sp_decSp, State.decSp_mem, State.sp_eq]

/-- The load of POP and RET: the cell at the pointer (R91, R96). -/
theorem State.loadAtSp_eq (s : State) : s.loadAtSp = s.mem.get (s.reg 7).toNat := rfl

/-! ## Operands -/

/-- A byte names a register exactly when it is 0 to 7 (R12). -/
theorem operandReg_eq_some {b : Byte} {r : Reg} : operandReg b = some r ↔ b.toNat = r.val := by
  unfold operandReg
  split
  · simp [Fin.ext_iff]
  · next h => constructor
              · intro h'; cases h'
              · intro h'; omega

theorem operandReg_eq_none {b : Byte} : operandReg b = none ↔ 8 ≤ b.toNat := by
  unfold operandReg
  split
  · next h => simp; omega
  · next h => simp; omega

theorem operandReg_of_ok {b : Byte} (h : regByteOk b = true) : ∃ r, operandReg b = some r := by
  simp only [regByteOk, decide_eq_true_eq] at h
  exact ⟨⟨b.toNat, h⟩, by simp [operandReg, h]⟩

theorem withReg_some {opcode b : Byte} {r : Reg} (s : State) (k : Reg → Result) (h : operandReg b = some r) :
    withReg opcode b s k = k r := by
  simp [withReg, h]

theorem withReg_none {opcode b : Byte} (s : State) (k : Reg → Result) (h : 8 ≤ b.toNat) :
    withReg opcode b s k = .next (s.raise ⟨.invalidRegister, s.pc, some opcode, b.toNat⟩) := by
  simp [withReg, operandReg_eq_none.2 h]

/-- Everything a checked register operand can do. -/
theorem withReg_cases (opcode b : Byte) (s : State) (k : Reg → Result) :
    (∃ r, operandReg b = some r ∧ withReg opcode b s k = k r) ∨
      (8 ≤ b.toNat ∧ withReg opcode b s k = .next (s.raise ⟨.invalidRegister, s.pc, some opcode, b.toNat⟩)) := by
  cases h : operandReg b with
  | some r => exact .inl ⟨r, rfl, withReg_some s k h⟩
  | none =>
    have h8 := operandReg_eq_none.1 h
    exact .inr ⟨h8, withReg_none s k h8⟩

theorem withRegs_some {opcode a b : Byte} {ra rb : Reg} (s : State) (k : Reg → Reg → Result)
    (ha : operandReg a = some ra) (hb : operandReg b = some rb) : withRegs opcode a b s k = k ra rb := by
  simp [withRegs, withReg_some, ha, hb]

/-- Everything two checked register operands can do, `a` before `b` (R75). -/
theorem withRegs_cases (opcode a b : Byte) (s : State) (k : Reg → Reg → Result) :
    (∃ ra rb, operandReg a = some ra ∧ operandReg b = some rb ∧ withRegs opcode a b s k = k ra rb) ∨
      (8 ≤ a.toNat ∧ withRegs opcode a b s k = .next (s.raise ⟨.invalidRegister, s.pc, some opcode, a.toNat⟩)) ∨
      (a.toNat < 8 ∧ 8 ≤ b.toNat ∧
        withRegs opcode a b s k = .next (s.raise ⟨.invalidRegister, s.pc, some opcode, b.toNat⟩)) := by
  rcases withReg_cases opcode a s (fun ra => withReg opcode b s fun rb => k ra rb) with ⟨ra, ha, e⟩ | ⟨h8, e⟩
  · rcases withReg_cases opcode b s (k ra) with ⟨rb, hb, e'⟩ | ⟨h8', e'⟩
    · exact .inl ⟨ra, rb, ha, hb, e.trans e'⟩
    · have := operandReg_eq_some.1 ha
      exact .inr (.inr ⟨by omega, h8', e.trans e'⟩)
  · exact .inr (.inl ⟨h8, e⟩)

/-! ## Flags -/

/-- A comparison sets exactly one of the three bits (R18, R100). -/
theorem compareFlags_cases (x y : Byte) :
    (x = y ∧ compareFlags x y = 0x01) ∨ (x.toNat < y.toNat ∧ compareFlags x y = 0x04) ∨
      (y.toNat < x.toNat ∧ compareFlags x y = 0x02) := by
  unfold compareFlags
  by_cases h : x = y
  · exact .inl ⟨h, by simp [h, flagE]⟩
  · have hne : x.toNat ≠ y.toNat := fun e => h (BitVec.eq_of_toNat_eq e)
    by_cases hlt : x.toNat < y.toNat
    · exact .inr (.inl ⟨hlt, by simp [h, hlt, flagL]⟩)
    · exact .inr (.inr ⟨by omega, by simp [h, hlt, flagG]⟩)

/-- The mask of the defined bits leaves a comparison's outcome as it is (R17). -/
theorem compareFlags_masked (x y : Byte) : compareFlags x y &&& flDefined = compareFlags x y := by
  rcases compareFlags_cases x y with ⟨_, h⟩ | ⟨_, h⟩ | ⟨_, h⟩ <;> rw [h] <;> rfl

/-! ## The fetch -/

/-- The fetch succeeds for pc 0 to 253, and gives the three bytes at the PC (R71). -/
theorem fetch_ok (s : State) (h : s.pc ≤ 253) :
    fetch s = .ok ⟨s.mem.get s.pc, s.mem.get (s.pc + 1), s.mem.get (s.pc + 2)⟩ := by
  simp [fetch, memRead_in s.mem (show s.pc < 256 by omega), memRead_in s.mem (show s.pc + 1 < 256 by omega),
    memRead_in s.mem (show s.pc + 2 < 256 by omega)]

theorem fetch_254 (s : State) (h : s.pc = 254) : fetch s = .error ⟨.addressing, 254, some (s.mem.get 254), 256⟩ := by
  simp [fetch, h, memRead_in s.mem (show 254 < 256 by omega), memRead_in s.mem (show 255 < 256 by omega),
    memRead_out s.mem (show 256 ≤ 256 by omega)]

theorem fetch_255 (s : State) (h : s.pc = 255) : fetch s = .error ⟨.addressing, 255, some (s.mem.get 255), 256⟩ := by
  simp [fetch, h, memRead_in s.mem (show 255 < 256 by omega), memRead_out s.mem (show 256 ≤ 256 by omega)]

theorem fetch_beyond (s : State) (h : 256 ≤ s.pc) : fetch s = .error ⟨.addressing, s.pc, none, s.pc⟩ := by
  simp [fetch, memRead_out s.mem h]

/-! ## The step -/

theorem step_running (s : State) (h : s.run = .running) : step s = runInstruction s := by
  simp [step, h]

theorem step_stopped (s : State) (h : s.run ≠ .running) : step s = .next s := by
  unfold step
  cases hr : s.run with
  | running => exact absurd hr h
  | halted => rfl
  | faulted => rfl

end Sys2Proof.Machine
end

