-- ==== Sys2Proof/Laws/Exec.lean ====
section
/-! SUPPORT. Everything each handler, and a step, can do: one inversion lemma for each, in terms of the shared operations, so
that no later proof unfolds a meaning or the step. -/

namespace Sys2Proof.Machine

open Sys2Proof

/-- The state a bad register operand leaves (60_exceptions.md R113, R118). -/
abbrev badOperand (opcode b : Byte) (s : State) : State :=
  s.raise ⟨.invalidRegister, s.pc, some opcode, b.toNat⟩

theorem exec_ldi_cases (a b : Byte) (s : State) :
    (∃ r, operandReg a = some r ∧ exec (.ldi a b) s = .next ((s.setReg r b.toNat).addPc 3)) ∨
      (8 ≤ a.toNat ∧ exec (.ldi a b) s = .next (badOperand opcLdi a s)) :=
  withReg_cases opcLdi a s _

theorem exec_prn_cases (a : Byte) (s : State) :
    (∃ r, operandReg a = some r ∧ exec (.prn a) s = .next ((s.emit (s.reg r)).addPc 2)) ∨
      (8 ≤ a.toNat ∧ exec (.prn a) s = .next (badOperand opcPrn a s)) :=
  withReg_cases opcPrn a s _

theorem exec_hlt_eq (s : State) : exec .hlt s = .next s.halt := rfl

theorem exec_mul_cases (a b : Byte) (s : State) :
    (∃ ra rb, operandReg a = some ra ∧ operandReg b = some rb ∧
        exec (.mul a b) s = .next ((s.setReg ra (s.val ra * s.val rb)).addPc 3)) ∨
      (8 ≤ a.toNat ∧ exec (.mul a b) s = .next (badOperand opcMul a s)) ∨
      (a.toNat < 8 ∧ 8 ≤ b.toNat ∧ exec (.mul a b) s = .next (badOperand opcMul b s)) :=
  withRegs_cases opcMul a b s _

theorem exec_add_cases (a b : Byte) (s : State) :
    (∃ ra rb, operandReg a = some ra ∧ operandReg b = some rb ∧
        exec (.add a b) s = .next ((s.setReg ra (s.val ra + s.val rb)).addPc 3)) ∨
      (8 ≤ a.toNat ∧ exec (.add a b) s = .next (badOperand opcAdd a s)) ∨
      (a.toNat < 8 ∧ 8 ≤ b.toNat ∧ exec (.add a b) s = .next (badOperand opcAdd b s)) :=
  withRegs_cases opcAdd a b s _

theorem exec_push_cases (a : Byte) (s : State) :
    (∃ r, operandReg a = some r ∧
        exec (.push a) s = .next ((s.decSp.storeAtSp (s.decSp.reg r)).addPc 2)) ∨
      (8 ≤ a.toNat ∧ exec (.push a) s = .next (badOperand opcPush a s)) :=
  withReg_cases opcPush a s _

theorem exec_pop_cases (a : Byte) (s : State) :
    (∃ r, operandReg a = some r ∧ exec (.pop a) s = .next ((s.setReg r s.loadAtSp.toNat).incSp.addPc 2)) ∨
      (8 ≤ a.toNat ∧ exec (.pop a) s = .next (badOperand opcPop a s)) :=
  withReg_cases opcPop a s _

theorem exec_call_cases (a : Byte) (s : State) :
    (∃ r, operandReg a = some r ∧
        exec (.call a) s = .next ((s.decSp.storeAtSp (trunc8 (s.pc + 2))).setPc (s.decSp.reg r).toNat)) ∨
      (8 ≤ a.toNat ∧ exec (.call a) s = .next (badOperand opcCall a s)) :=
  withReg_cases opcCall a s _

theorem exec_ret_eq (s : State) : exec .ret s = .next (s.setPc s.loadAtSp.toNat).incSp := rfl

theorem exec_cmp_cases (a b : Byte) (s : State) :
    (∃ ra rb, operandReg a = some ra ∧ operandReg b = some rb ∧
        exec (.cmp a b) s = .next ((s.setFl (compareFlags (s.reg ra) (s.reg rb))).addPc 3)) ∨
      (8 ≤ a.toNat ∧ exec (.cmp a b) s = .next (badOperand opcCmp a s)) ∨
      (a.toNat < 8 ∧ 8 ≤ b.toNat ∧ exec (.cmp a b) s = .next (badOperand opcCmp b s)) :=
  withRegs_cases opcCmp a b s _

theorem exec_jmp_cases (a : Byte) (s : State) :
    (∃ r, operandReg a = some r ∧ exec (.jmp a) s = .next (s.setPc (s.reg r).toNat)) ∨
      (8 ≤ a.toNat ∧ exec (.jmp a) s = .next (badOperand opcJmp a s)) :=
  withReg_cases opcJmp a s _

theorem exec_jeq_cases (a : Byte) (s : State) :
    (∃ r, operandReg a = some r ∧
        exec (.jeq a) s = .next (if s.flEqual then s.setPc (s.reg r).toNat else s.addPc 2)) ∨
      (8 ≤ a.toNat ∧ exec (.jeq a) s = .next (badOperand opcJeq a s)) :=
  withReg_cases opcJeq a s _

theorem exec_jne_cases (a : Byte) (s : State) :
    (∃ r, operandReg a = some r ∧
        exec (.jne a) s = .next (if s.flEqual then s.addPc 2 else s.setPc (s.reg r).toNat)) ∨
      (8 ≤ a.toNat ∧ exec (.jne a) s = .next (badOperand opcJne a s)) :=
  withReg_cases opcJne a s _

/-- Everything one step can do (40_fetch_decode_dispatch.md R70, R75): nothing in a stopped core, an AddressingError at pc 254 or
above, an UnknownOpcodeError, or the decoded instruction's handler. -/
theorem step_cases (s : State) :
    (s.run ≠ .running ∧ step s = .next s) ∨
    (s.run = .running ∧ 254 ≤ s.pc ∧ ∃ e, fetch s = .error e ∧ step s = .next (s.raise e)) ∨
    (s.run = .running ∧ s.pc ≤ 253 ∧ lookup s.window.opcode = none ∧
      step s = .next ((s.deliverTrace s.window).raise
        ⟨.unknownOpcode, s.pc, some s.window.opcode, s.window.opcode.toNat⟩)) ∨
    (s.run = .running ∧ s.pc ≤ 253 ∧ ∃ i, decode s.window = .ok i ∧ step s = exec i (s.deliverTrace s.window)) := by
  by_cases hr : s.run = .running
  · rw [step_running s hr]
    rcases Nat.lt_or_ge s.pc 254 with hp | hp
    · have hf : fetch s = .ok s.window := fetch_ok s (by omega)
      cases hd : decode s.window with
      | ok i => exact .inr (.inr (.inr ⟨hr, by omega, i, rfl, by simp [runInstruction, hf, runWindow, hd]⟩))
      | error e =>
        obtain ⟨hl, rfl⟩ := decode_error hd
        exact .inr (.inr (.inl ⟨hr, by omega, hl, by simp [runInstruction, hf, runWindow, hd]⟩))
    · refine .inr (.inl ⟨hr, hp, ?_⟩)
      have hcases : s.pc = 254 ∨ s.pc = 255 ∨ 256 ≤ s.pc := by omega
      rcases hcases with h | h | h
      · exact ⟨_, fetch_254 s h, by simp [runInstruction, fetch_254 s h]⟩
      · exact ⟨_, fetch_255 s h, by simp [runInstruction, fetch_255 s h]⟩
      · exact ⟨_, fetch_beyond s h, by simp [runInstruction, fetch_beyond s h]⟩
  · exact .inl ⟨hr, step_stopped s hr⟩

/-! ## Runs -/

theorem runs_zero (s t : State) : Runs 0 s t ↔ s = t :=
  ⟨fun h => by injection h, fun h => congrArg Host.Outcome.next h⟩

/-- The host's run, one step at a time. -/
theorem run_succ (M : Host.Core) (n : Nat) (s : M.State) : M.run (n + 1) s = match M.step s with
    | .next s' => M.run n s'
    | .fault r => .fault r
    | .refused r => .refused r := rfl

/-- A run of n + 1 steps is a step that answers a next state and a run of n steps from it. -/
theorem runs_succ (n : Nat) (s t : State) : Runs (n + 1) s t ↔ ∃ u, step s = .next u ∧ Runs n u t := by
  have hr := run_succ Sys2Proof.core n s
  unfold Runs
  cases hs : step s with
  | next u =>
    have hc : Sys2Proof.core.step s = .next u := hs
    rw [hc] at hr
    rw [hr]
    exact ⟨fun h => ⟨u, rfl, h⟩, fun ⟨v, hv, h⟩ => by injection hv with hv; exact hv ▸ h⟩
  | fault r => exact r.casesOn
  | refused r =>
    have hc : Sys2Proof.core.step s = .refused r := hs
    rw [hc] at hr
    rw [hr]
    exact ⟨fun h => (by injection h), fun ⟨v, hv, _⟩ => (by injection hv)⟩

end Sys2Proof.Machine
end

