-- ==== Sys2Proof/Laws/PerInstr.lean ====
section
/-! SUPPORT. What holds of every instruction as syntax, one lemma per constructor. -/

namespace Sys2Proof.Laws

/-- The encoding's shape (R50, R51): the opcode byte first, as long as the instruction's length, 1 to 3 bytes, and every
register operand among the operand bytes. -/
def EncodeShape.Statement (i : Instr) : Prop :=
  (encode i).head? = some i.opcode ∧ (encode i).length = i.length ∧ 1 ≤ i.length ∧ i.length ≤ 3 ∧
    ∀ b ∈ i.regOperands, b ∈ i.operands

theorem EncodeShape.ldi (a b : Byte) : EncodeShape.Statement (.ldi a b) := by
  simp [EncodeShape.Statement, encode, Instr.length, Instr.operands, Instr.regOperands]
theorem EncodeShape.prn (a : Byte) : EncodeShape.Statement (.prn a) := by
  simp [EncodeShape.Statement, encode, Instr.length, Instr.operands, Instr.regOperands]
theorem EncodeShape.hlt : EncodeShape.Statement .hlt := by
  simp [EncodeShape.Statement, encode, Instr.length, Instr.operands, Instr.regOperands]
theorem EncodeShape.mul (a b : Byte) : EncodeShape.Statement (.mul a b) := by
  simp [EncodeShape.Statement, encode, Instr.length, Instr.operands, Instr.regOperands]
theorem EncodeShape.add (a b : Byte) : EncodeShape.Statement (.add a b) := by
  simp [EncodeShape.Statement, encode, Instr.length, Instr.operands, Instr.regOperands]
theorem EncodeShape.push (a : Byte) : EncodeShape.Statement (.push a) := by
  simp [EncodeShape.Statement, encode, Instr.length, Instr.operands, Instr.regOperands]
theorem EncodeShape.pop (a : Byte) : EncodeShape.Statement (.pop a) := by
  simp [EncodeShape.Statement, encode, Instr.length, Instr.operands, Instr.regOperands]
theorem EncodeShape.call (a : Byte) : EncodeShape.Statement (.call a) := by
  simp [EncodeShape.Statement, encode, Instr.length, Instr.operands, Instr.regOperands]
theorem EncodeShape.ret : EncodeShape.Statement .ret := by
  simp [EncodeShape.Statement, encode, Instr.length, Instr.operands, Instr.regOperands]
theorem EncodeShape.cmp (a b : Byte) : EncodeShape.Statement (.cmp a b) := by
  simp [EncodeShape.Statement, encode, Instr.length, Instr.operands, Instr.regOperands]
theorem EncodeShape.jmp (a : Byte) : EncodeShape.Statement (.jmp a) := by
  simp [EncodeShape.Statement, encode, Instr.length, Instr.operands, Instr.regOperands]
theorem EncodeShape.jeq (a : Byte) : EncodeShape.Statement (.jeq a) := by
  simp [EncodeShape.Statement, encode, Instr.length, Instr.operands, Instr.regOperands]
theorem EncodeShape.jne (a : Byte) : EncodeShape.Statement (.jne a) := by
  simp [EncodeShape.Statement, encode, Instr.length, Instr.operands, Instr.regOperands]

end Sys2Proof.Laws
end

