-- ==== Sys2Proof/Tests/Slice0.lean ====
section
/-! SUPPORT. The model's own tests. Expected results come from the spec: the encodings of 30_encoding.md R51 and R53, the
vectors V-… of 95_test_vectors.md, and the rules named. Then the witnesses: for each statement with hypotheses, a
concrete state and operands that meet them. -/

namespace Sys2Proof.Tests

open Sys2Proof Sys2Proof.Machine

/-- A RUNNING core with these bytes at the PC, all else as at reset. -/
def coreAt (pc : Nat) (bytes : List Byte) : State :=
  match memWriteAll [] pc bytes with
  | .ok m => { State.reset with pc := pc, mem := m }
  | .error _ => { State.reset with pc := pc }

/-- The same core with a register set. -/
def withX (s : State) (r : Reg) (v : Byte) : State := s.setReg r v.toNat

/-- The same core with a memory cell set. -/
def withMem (s : State) (a : Nat) (v : Byte) : State := { s with mem := s.mem.set a v }

/-- The same core with FL set. -/
def withFl (s : State) (v : Byte) : State := { s with fl := v }

/-- The state after one step. -/
def after (s : State) : State :=
  match step s with
  | .next t => t
  | .fault r => r.casesOn
  | .refused _ => s

/-! ## Decoding: one word per constructor, from R51 and R53 -/

theorem test_decode_ldi : decode ⟨0b10000010, 3, 200⟩ = .ok (.ldi 3 200) := by decide
theorem test_decode_prn : decode ⟨0b01000111, 4, 0xFF⟩ = .ok (.prn 4) := by decide
theorem test_decode_hlt : decode ⟨0b00000001, 0xFF, 0xFE⟩ = .ok .hlt := by decide
theorem test_decode_mul : decode ⟨0b10100010, 1, 2⟩ = .ok (.mul 1 2) := by decide
theorem test_decode_add : decode ⟨0b10100000, 2, 3⟩ = .ok (.add 2 3) := by decide
theorem test_decode_push : decode ⟨0b01000101, 5, 9⟩ = .ok (.push 5) := by decide
theorem test_decode_pop : decode ⟨0b01000110, 6, 9⟩ = .ok (.pop 6) := by decide
theorem test_decode_call : decode ⟨0b01010000, 7, 9⟩ = .ok (.call 7) := by decide
theorem test_decode_ret : decode ⟨0b00010001, 8, 9⟩ = .ok .ret := by decide
theorem test_decode_cmp : decode ⟨0b10100111, 0, 1⟩ = .ok (.cmp 0 1) := by decide
theorem test_decode_jmp : decode ⟨0b01010100, 2, 9⟩ = .ok (.jmp 2) := by decide
theorem test_decode_jeq : decode ⟨0b01010101, 3, 9⟩ = .ok (.jeq 3) := by decide
theorem test_decode_jne : decode ⟨0b01010110, 4, 9⟩ = .ok (.jne 4) := by decide

/-- V-F9: bytes that are instructions elsewhere (NOP, LD, ST, AND, OR, XOR, SUB) are rejected by name here. -/
theorem test_decode_rejects_other_ls8_opcodes :
    ∀ o ∈ ([0x00, 0x83, 0x84, 0xA8, 0xAA, 0xAB, 0xA1] : List Byte), decode ⟨o, 0, 0⟩ = .error (.unknownOpcode o) := by decide

/-- A two-byte and a three-byte row with their operand bits written, bit 0 the first byte's least significant. -/
theorem test_decodeTableWord :
    decodeTableWord 24 0xC80382 = some (.ldi 3 200) ∧ decodeTableWord 16 0x0447 = some (.prn 4) ∧
      decodeTableWord 8 0xFFFF11 = some .ret ∧ decodeTableWord 8 0 = none := by decide

/-! ## Well-formedness: an ill-formed term for each check (R12, R113) -/

theorem test_wf_refuses_ldi_a : (Instr.ldi 8 0).wellFormed = false := by decide
theorem test_wf_accepts_any_immediate : (Instr.ldi 7 0xFF).wellFormed = true := by decide
theorem test_wf_refuses_prn_a : (Instr.prn 9).wellFormed = false := by decide
theorem test_wf_refuses_mul : (Instr.mul 8 0).wellFormed = false ∧ (Instr.mul 0 8).wellFormed = false := by decide
theorem test_wf_refuses_add : (Instr.add 8 0).wellFormed = false ∧ (Instr.add 0 8).wellFormed = false := by decide
theorem test_wf_refuses_push_pop : (Instr.push 8).wellFormed = false ∧ (Instr.pop 0xFF).wellFormed = false := by decide
theorem test_wf_refuses_call_a : (Instr.call 8).wellFormed = false := by decide
theorem test_wf_refuses_cmp : (Instr.cmp 8 0).wellFormed = false ∧ (Instr.cmp 0 8).wellFormed = false := by decide
theorem test_wf_refuses_jumps :
    (Instr.jmp 8).wellFormed = false ∧ (Instr.jeq 8).wellFormed = false ∧ (Instr.jne 8).wellFormed = false := by decide

/-! ## One step each, from the vectors of 95_test_vectors.md -/

/-- V-L4: the stack pointer moves. -/
theorem test_ldi_sp : (after (coreAt 0 [0x82, 0x07, 0x80])).reg 7 = 0x80 := by decide
/-- V-L7: at 253 the PC becomes 256. -/
theorem test_ldi_at_253 : let t := after (coreAt 253 [0x82, 0x01, 0x05]); t.reg 1 = 5 ∧ t.pc = 256 := by decide
/-- V-P2: 255, never -1. -/
theorem test_prn_unsigned :
    let t := after (withX (coreAt 0 [0x47, 0x04]) 4 0xFF); t.out = [255] ∧ consoleLines t = ["255"] := by decide
/-- V-P4: operand b is ignored. -/
theorem test_prn_ignores_b : let t := after (coreAt 0 [0x47, 0x00, 0xFF]); t.out = [0] ∧ t.pc = 2 := by decide
/-- V-H3. -/
theorem test_hlt_at_253 : let t := after (coreAt 253 [0x01]); t.run = .halted ∧ t.pc = 253 := by decide
/-- V-H4: not halted. -/
theorem test_hlt_at_254 :
    let t := after (coreAt 254 [0x01]); t.run = .faulted ∧ t.err = some ⟨.addressing, 254, some 0x01, 256⟩ := by decide
/-- V-M6. -/
theorem test_mul_wraps : (after (withX (withX (coreAt 0 [0xA2, 0, 1]) 0 200) 1 2)).reg 0 = 144 := by decide
/-- V-M9: the same register, squared. -/
theorem test_mul_same : (after (withX (coreAt 0 [0xA2, 3, 3]) 3 17)).reg 3 = 33 := by decide
/-- V-A2. -/
theorem test_add_wraps :
    let t := after (withX (withX (coreAt 0 [0xA0, 2, 3]) 2 200) 3 100); t.reg 2 = 44 ∧ t.reg 3 = 100 ∧ t.pc = 3 := by decide
/-- V-A11: a is checked before b. -/
theorem test_add_checks_a_first :
    (after (coreAt 0 [0xA0, 0x09, 0x08])).err = some ⟨.invalidRegister, 0, some 0xA0, 9⟩ := by decide
/-- V-ST4: the pointer wraps, no error. -/
theorem test_push_wraps :
    let t := after (withX (withX (coreAt 0 [0x45, 0]) 0 0xAB) 7 0); t.reg 7 = 0xFF ∧ t.mem.get 0xFF = 0xAB := by decide
/-- V-ST7. -/
theorem test_push_r7 : let t := after (coreAt 0 [0x45, 7]); t.reg 7 = 0xF3 ∧ t.mem.get 0xF3 = 0xF3 := by decide
/-- V-ST5. -/
theorem test_pop_wraps :
    let t := after (withMem (withX (coreAt 0 [0x46, 0]) 7 0xFF) 0xFF 0x12); t.reg 0 = 0x12 ∧ t.reg 7 = 0 := by decide
/-- V-ST8. -/
theorem test_pop_r7 : (after (withMem (withX (coreAt 0 [0x46, 7]) 7 0xF3) 0xF3 0x20)).reg 7 = 0x21 := by decide
/-- V-CR4. -/
theorem test_call_at_253 :
    let t := after (withX (coreAt 253 [0x50, 0]) 0 0x40); t.mem.get 0xF3 = 0xFF ∧ t.reg 7 = 0xF3 ∧ t.pc = 0x40 := by decide
/-- V-CR6. -/
theorem test_call_r7 : let t := after (coreAt 0 [0x50, 7]); t.mem.get 0xF3 = 2 ∧ t.pc = 0xF3 := by decide
/-- V-CR8: no call outstanding. -/
theorem test_ret_empty : let t := after (coreAt 9 [0x11]); t.pc = 0 ∧ t.reg 7 = 0xF5 := by decide
/-- V-CR9. -/
theorem test_ret_wraps :
    let t := after (withMem (withX (coreAt 0 [0x11]) 7 0xFF) 0xFF 0x20); t.pc = 0x20 ∧ t.reg 7 = 0 := by decide
/-- V-C1: overwritten, not ORed. -/
theorem test_cmp_overwrites : (after (withFl (coreAt 0 [0xA7, 0, 1]) 4)).fl = 1 := by decide
/-- V-C3 and V-C4: unsigned. -/
theorem test_cmp_unsigned :
    (after (withX (withX (coreAt 0 [0xA7, 0, 1]) 0 255) 1 1)).fl = 2 ∧ (after (withX (coreAt 0 [0xA7, 0, 1]) 1 255)).fl = 4 := by
  decide
/-- V-J3: accepted, the next step fails. -/
theorem test_jmp_255 :
    let t := after (withX (coreAt 0 [0x54, 0]) 0 0xFF); t.pc = 255 ∧ t.run = .running ∧ (after t).run = .faulted := by decide
/-- V-BR1 and V-BR2. -/
theorem test_jeq : (after (withFl (withX (coreAt 12 [0x55, 2]) 2 0x17) 1)).pc = 0x17 ∧
    (after (withFl (withX (coreAt 12 [0x55, 2]) 2 0x17) 4)).pc = 14 := by decide
/-- V-BR6: before any CMP, JNE jumps (D4). -/
theorem test_jne_before_cmp : (after (withX (coreAt 3 [0x56, 0]) 0 8)).pc = 8 := by decide
/-- V-BR7: a bad register of a jump that would not be taken (D5). -/
theorem test_jne_bad_register_untaken :
    (after (withFl (coreAt 0 [0x56, 9]) 1)).err = some ⟨.invalidRegister, 0, some 0x56, 9⟩ := by decide

/-! ## Errors, load, trace -/

/-- V-F2: the operand bytes of an unknown opcode are not interpreted. -/
theorem test_unknown_opcode :
    (after (coreAt 0 [0xFF, 0xFF, 0xFF])).err = some ⟨.unknownOpcode, 0, some 0xFF, 255⟩ := by decide
/-- V-F3: an empty image. -/
theorem test_empty_image : launch [] = some State.reset ∧ (after State.reset).err = some ⟨.unknownOpcode, 0, some 0, 0⟩ := by
  decide
/-- V-F5: the fetch's error comes before the lookup's. -/
theorem test_addressing_before_unknown : (after (coreAt 254 [0xFF])).err = some ⟨.addressing, 254, some 0xFF, 256⟩ := by decide
/-- R110's codes. -/
theorem test_error_codes :
    ErrorKind.unknownOpcode.code = 1 ∧ ErrorKind.addressing.code = 2 ∧ ErrorKind.invalidRegister.code = 3 := by decide
/-- V-F6. -/
theorem test_pc_256 : (after (coreAt 256 [])).err = some ⟨.addressing, 256, none, 256⟩ := by decide
/-- V-ST11: a PUSH over the next opcode; the next fetch sees it and halts. -/
theorem test_push_over_program :
    let t := after (withMem (withX (withX (coreAt 6 [0x45, 0]) 0 1) 7 9) 8 0x47)
    t.mem.get 8 = 1 ∧ t.pc = 8 ∧ (after t).run = .halted := by decide
/-- R77: one record, the registers before the handler; none when off. -/
theorem test_trace : (after ((coreAt 0 [0x82, 0, 8]).setTrace true)).trace = [⟨0, 0x82, 0, 8, State.reset.regs⟩] ∧
    (after (coreAt 0 [0x82, 0, 8])).trace = [] := by decide
/-- Writing 0x00 unlists the cell, so equal memories are equal data. -/
theorem test_memory_canonical : Memory.set (Memory.set [] 5 7) 5 0 = [] ∧ (Memory.set (Memory.set [] 9 1) 5 7).wf = true := by
  decide

/-! ## Witnesses: the hypotheses of each statement, met -/

theorem witness_DecodesExactlyTheThirteenOpcodes :
    (0x56 : Byte) ∈ ([0x82, 0x47, 0x01, 0xA2, 0xA0, 0x45, 0x46, 0x50, 0x11, 0xA7, 0x54, 0x55, 0x56] : List Byte) ∧
      (0x57 : Byte) ∉ ([0x82, 0x47, 0x01, 0xA2, 0xA0, 0x45, 0x46, 0x50, 0x11, 0xA7, 0x54, 0x55, 0x56] : List Byte) := by decide
theorem witness_EncodeThenDecodeGivesTheInstruction :
    3 ≤ Instr.hlt.length + ([0, 0] : List Byte).length ∧ 3 ≤ (Instr.add 7 0).length + ([] : List Byte).length := by decide
theorem witness_DecodedWindowBeginsWithTheEncoding : decode ⟨0x45, 7, 0⟩ = .ok (.push 7) := by decide
theorem witness_BytesOutsideTheInstructionAreIgnored :
    decode ⟨0x11, 0, 0⟩ = .ok .ret ∧ Instr.ret.length = 1 ∧ decode ⟨0x54, 1, 0⟩ = .ok (.jmp 1) ∧ (Instr.jmp 1).length = 2 := by
  decide
theorem witness_MemoryAccessContract : (0 ≤ 255 ∧ 255 ≤ 255) ∧ 256 ≤ 256 := by decide
theorem witness_CanonicalMemoriesThatReadAlikeAreEqual :
    ∃ m m' : Memory, m ≠ [] ∧ m.wf = true ∧ m'.wf = true ∧ ∀ a, m.get a = m'.get a :=
  ⟨[(0, 1), (255, 2)], [(0, 1), (255, 2)], by decide, by decide, by decide, fun _ => rfl⟩
theorem witness_LoadingChangesMemoryAlone :
    ([] : List Byte).length ≤ 256 ∧ (List.replicate 256 (1 : Byte)).length ≤ 256 :=
  ⟨Nat.zero_le _, Nat.le_of_eq List.length_replicate⟩
theorem witness_LaunchMeetsTheInvariantOrIsRefused :
    (launch [0x82, 0x00, 0x08]).isSome = true ∧ 256 < (List.replicate 257 (1 : Byte)).length := ⟨by decide, by rw [List.length_replicate]; omega⟩
theorem witness_StepRunsTheDecodedInstruction :
    let s := (coreAt 253 [0x82, 7, 0xFF]).setTrace true
    s.run = .running ∧ s.pc ≤ 253 ∧
      decode ⟨s.mem.get s.pc, s.mem.get (s.pc + 1), s.mem.get (s.pc + 2)⟩ = .ok (.ldi 7 0xFF) := by decide
theorem witness_StoppedCoreNeverMoves :
    Stopped (after (coreAt 0 [0x01])) ∧ Stopped (after State.reset) := ⟨.inl (by decide), .inr (by decide)⟩
theorem witness_UnknownOpcodeIsFatal :
    let s := coreAt 253 [0x02]
    s.run = .running ∧ s.pc ≤ 253 ∧ ∀ row ∈ instructionTable, row.opcode ≠ s.mem.get s.pc := by
  refine ⟨by decide, by decide, ?_⟩
  intro row h
  simp only [instructionTable, List.mem_cons, List.not_mem_nil, or_false] at h
  rcases h with h | h | h | h | h | h | h | h | h | h | h | h | h <;> subst h <;> decide
theorem witness_AddressingErrorExactlyAtTheWindowsEnd :
    (∀ pc ∈ [253, 254, 255, 256],
      (coreAt pc []).run = .running ∧ (coreAt pc []).err = none ∧ (coreAt pc []).pc ≤ 256) ∧
    (∃ e, fetch (coreAt 254 [1]) = .error e) ∧
    (∃ t e, State.reset.err = none ∧ exec (.prn 8) State.reset = .next t ∧ t.err = some e) :=
  ⟨by decide, ⟨_, rfl⟩, ⟨_, _, rfl, rfl, rfl⟩⟩
theorem witness_AddressingErrorRecord :
    ∀ pc ∈ [254, 255, 256], (coreAt pc [] ).run = .running ∧ (coreAt pc []).pc = pc := by decide
theorem witness_BadRegisterOperandIsFatal :
    (Instr.mul 9 8).firstBadOperand = some 9 ∧ (Instr.cmp 7 8).firstBadOperand = some 8 ∧
      (Instr.jne 255).firstBadOperand = some 255 := by decide
theorem witness_WellFormedHandlersComplete :
    Instr.hlt.wellFormed = true ∧ (Instr.mul 7 0).wellFormed = true := by decide
theorem witness_ErrorsArePrecise :
    ∃ t, (coreAt 9 [0x45, 8]).run = .running ∧ step (coreAt 9 [0x45, 8]) = .next t ∧ t.run = .faulted := ⟨_, rfl, rfl, rfl⟩
theorem witness_FirstFailingCheckDecidesTheError :
    ∀ s ∈ [coreAt 254 [0xFF], coreAt 253 [0xFF], coreAt 0 [0xA0, 0, 8], coreAt 0 [0xA0, 0, 7]],
      s.run = .running ∧ s.err = none ∧ (step s matches .next _) = true := by decide
theorem witness_HandlersMoveThePc :
    ∀ o ∈ ([0x82, 0x47, 0x01, 0xA2, 0xA0, 0x45, 0x46, 0x50, 0x11, 0xA7, 0x54, 0x55, 0x56] : List Byte),
      let s := coreAt 253 [o, 7, 7]
      s.run = .running ∧ (step s matches .next _) = true ∧ (after s).run ≠ .faulted := by decide

/-! The register operand of the statements on one instruction, at both ends of each clause. -/

theorem witness_LdiLoadsTheImmediate :
    (0 : Byte).toNat = (0 : Reg) ∧ (7 : Byte).toNat = (7 : Reg) ∧ 8 ≤ (8 : Byte).toNat ∧ 8 ≤ (255 : Byte).toNat := by decide
theorem witness_PrnAppendsToOut : (7 : Byte).toNat = (7 : Reg) ∧ 8 ≤ (8 : Byte).toNat := by decide
theorem witness_HltHaltsOnItsOwnAddress :
    ∀ pc ∈ [253, 254, 255], (coreAt pc [1]).run = .running ∧ (coreAt pc [1]).mem.get (coreAt pc [1]).pc = 0x01 := by decide
theorem witness_AddAddsModulo256 :
    (7 : Byte).toNat = (7 : Reg) ∧ (0 : Byte).toNat = (0 : Reg) ∧ 8 ≤ (8 : Byte).toNat ∧ (7 : Byte).toNat < 8 := by decide
theorem witness_MulKeepsTheLowByte : (7 : Byte).toNat = (7 : Reg) ∧ (0 : Byte).toNat = (0 : Reg) := by decide
theorem witness_PushStoresBelowThePointer : (0 : Byte).toNat = (0 : Reg) ∧ (7 : Byte).toNat = (7 : Reg) := by decide
theorem witness_PopLoadsFromThePointer :
    (6 : Byte).toNat = (6 : Reg) ∧ (6 : Reg) ≠ 7 ∧ (7 : Byte).toNat = (7 : Reg) := by decide
theorem witness_CallPushesTheReturnAddress :
    (7 : Byte).toNat = (7 : Reg) ∧ (0 : Byte).toNat = (0 : Reg) ∧ (coreAt 253 [0x50, 0]).pc ≤ 253 := by decide
theorem witness_PushThenPopRestores :
    ∃ t, exec (.push 6) (withX (coreAt 0 []) 7 0) = .next t ∧ (6 : Byte).toNat = (6 : Reg) ∧ (0 : Byte).toNat = (0 : Reg) ∧
      (6 : Reg) ≠ 7 ∧ (0 : Reg) ≠ 7 ∧ (t.setPc 40).reg 7 = t.reg 7 ∧
      (t.setPc 40).mem.get (t.reg 7).toNat = t.mem.get (t.reg 7).toNat :=
  ⟨_, rfl, by decide, by decide, by decide, by decide, rfl, rfl⟩
theorem witness_CallThenRetReturns :
    ∃ t, exec (.call 1) (coreAt 253 []) = .next t ∧ (1 : Byte).toNat = (1 : Reg) ∧ (coreAt 253 []).pc ≤ 253 ∧
      (t.setPc 40).reg 7 = t.reg 7 ∧ (t.setPc 40).mem.get (t.reg 7).toNat = t.mem.get (t.reg 7).toNat :=
  ⟨_, rfl, by decide, by decide, rfl, rfl⟩
theorem witness_CmpOverwritesTheFlags :
    State.reset.reg 0 = State.reset.reg 1 ∧ (State.reset.reg 0).toNat < (State.reset.reg 7).toNat ∧
      (1 : Byte).toNat = (1 : Reg) ∧ (7 : Byte).toNat = (7 : Reg) := by decide
theorem witness_JmpSetsThePc : (0 : Byte).toNat = (0 : Reg) ∧ (7 : Byte).toNat = (7 : Reg) := by decide
theorem witness_ConditionalJumpsAreComplements :
    (7 : Byte).toNat = (7 : Reg) ∧ (withFl State.reset 1).fl.getLsbD 0 = true ∧ (withFl State.reset 6).fl.getLsbD 0 = false := by
  decide
theorem witness_CmpDecidesTheLaterJump :
    ∃ t u, exec (.cmp 0 7) State.reset = .next t ∧ (∀ x y, Instr.cmp x y ∉ [Instr.ldi 0 0xF4, .prn 0]) ∧
      execAll [.ldi 0 0xF4, .prn 0] t = .next u ∧ (0 : Byte).toNat = (0 : Reg) ∧ (7 : Byte).toNat = (7 : Reg) :=
  ⟨_, _, rfl, by simp, rfl, by decide, by decide⟩
theorem witness_OnlyCmpChangesTheFlags :
    ∃ t, step (coreAt 0 [0xA7, 0, 0]) = .next t ∧ t.fl ≠ (coreAt 0 [0xA7, 0, 0]).fl := ⟨_, rfl, by decide⟩
theorem witness_OnlyPushAndCallWriteMemory :
    ∃ t, step (coreAt 0 [0x45, 7]) = .next t ∧ t.mem.get 0xF3 ≠ (coreAt 0 [0x45, 7]).mem.get 0xF3 := ⟨_, rfl, by decide⟩
theorem witness_OnlyNamedRegistersChange :
    ∃ t, step (coreAt 0 [0x46, 7]) = .next t ∧ t.reg 7 ≠ (coreAt 0 [0x46, 7]).reg 7 := ⟨_, rfl, by decide⟩
theorem witness_OnlyPrnAppendsToOut :
    ∃ t, step (coreAt 0 [0x47, 7]) = .next t ∧ t.out ≠ (coreAt 0 [0x47, 7]).out := ⟨_, rfl, by decide⟩
theorem witness_NextFetchSeesThePushedByte :
    ∃ t, (withX (coreAt 6 [0x45, 0]) 7 9).run = .running ∧ (withX (coreAt 6 [0x45, 0]) 7 9).pc ≤ 253 ∧
      decode (withX (coreAt 6 [0x45, 0]) 7 9).window = .ok (.push 0) ∧ (0 : Byte).toNat = (0 : Reg) ∧ (0 : Reg) ≠ 7 ∧
      step (withX (coreAt 6 [0x45, 0]) 7 9) = .next t ∧ ((withX (coreAt 6 [0x45, 0]) 7 9).reg 7 - 1).toNat = 6 + 2 :=
  ⟨_, by decide, by decide, by decide, by decide, by decide, rfl, by decide⟩

/-- A RUNNING core on an instruction meets the invariant. -/
theorem witness_EveryStepKeepsTheInvariant : ∃ t, Inv (coreAt 253 [0x82, 0x01, 0x05]) ∧ step (coreAt 253 [0x82, 0x01, 0x05]) = .next t :=
  ⟨_, ⟨by decide, by decide, by decide, fun _ => by decide, by decide,
    fun h => absurd h (by decide)⟩, rfl⟩

/-- A FAULTED core with its error record meets the invariant, and the run from it exists. -/
theorem witness_RunsKeepTheInvariantAndTheFirstError :
    Inv (after (coreAt 256 [])) ∧ (∃ e, (after (coreAt 256 [])).err = some e) ∧ ∃ t, Runs 2 (after (coreAt 256 [])) t := by
  refine ⟨⟨by decide, by decide, by decide, by decide, by decide, fun _ => ?_⟩, ⟨_, rfl⟩, ⟨_, rfl⟩⟩
  exact ⟨⟨.addressing, 256, none, 256⟩, by decide, rfl, by decide, rfl, by decide⟩
theorem witness_OutputOnlyGrowsAlongRuns : ∃ t, Runs 1 (coreAt 0 [0x47, 7]) t ∧ t.out ≠ [] := ⟨_, rfl, by decide⟩
theorem witness_TraceChangesNoArchitecturalState :
    ∃ t t', SameArch (coreAt 0 [0x45, 7]) ((coreAt 0 [0x45, 7]).setTrace true) ∧ step (coreAt 0 [0x45, 7]) = .next t ∧
      step ((coreAt 0 [0x45, 7]).setTrace true) = .next t' := ⟨_, _, ⟨rfl, rfl, rfl, rfl, rfl, rfl, rfl⟩, rfl, rfl⟩
theorem witness_TraceDeliversOneRecordPerFetch :
    ∃ t, step ((coreAt 253 [0xFF]).setTrace true) = .next t ∧ t.trace.length = 1 ∧ t.run = .faulted :=
  ⟨_, rfl, by decide, by decide⟩
theorem witness_PlacedWordRunsNext :
    State.reset.pc ≤ 253 ∧ State.reset.traceOn = false ∧ decodeTableWord 16 0x0745 = some (.push 7) := by decide

end Sys2Proof.Tests
end

/-! The register file (10_state.md R13). -/

namespace Sys2Proof.Proofs

open Sys2Proof Sys2Proof.Machine

/-- A register holds its last written integer modulo 256 (R13). -/
theorem toNat_reg_setReg_same (s : State) (r : Reg) (v : Int) : (((s.setReg r v).reg r).toNat : Int) = v % 256 := by
  rw [State.reg_setReg_same, trunc8_toNat]

/-- Settles O23: the written register reads back as `trunc8 v`, which is reduction modulo 256, and a write reaches no
other register. -/
theorem registerWriteTruncates : Obligations.RegisterWriteTruncates := by
  intro s r v
  refine ⟨toNat_reg_setReg_same s r v, ?nonneg, ?le, ?frame⟩
  case nonneg => exact Int.emod_nonneg v (by decide)
  case le => omega
  case frame => exact fun _ hq => State.reg_setReg_ne s v hq

end Sys2Proof.Proofs

/-! Loading the image (20_memory.md R43, 70_reset_and_hazards.md R131). -/

namespace Sys2Proof.Proofs

open Sys2Proof Sys2Proof.Machine

/-- A load whose writes all succeed replaces memory and nothing else (R131). -/
theorem loadImage_eq_some {s : State} {img : List Byte} {m : Memory}
    (h : memWriteAll s.mem Config.loadBase img = .ok m) : s.loadImage img = some { s with mem := m } := by
  simp only [State.loadImage, h]

/-- An image written from address 0 over memory at reset reads as its own bytes, and as 0x00 beyond them (R132). -/
theorem memWriteAll_reset_get {img : List Byte} {m : Memory}
    (h : memWriteAll State.reset.mem Config.loadBase img = .ok m) (a : Nat) : m.get a = img[a]?.getD 0 := by
  have hreset : State.reset.mem.get a = 0 := Memory.get_nil a
  rw [memWriteAll_get h, hreset, if_pos (Nat.zero_le a), Nat.sub_zero]

/-- Settles O10: an image of at most 256 bytes fits from address 0, so its writes succeed; the memory they leave is all
that the launch state does not share with reset. -/
theorem loadingChangesMemoryAlone : Obligations.LoadingChangesMemoryAlone := by
  intro img hlen
  have hfit : Config.loadBase + img.length ≤ 256 := (Nat.zero_add _).trans_le hlen
  obtain ⟨m, hm⟩ := memWriteAll_fits State.reset.mem Config.loadBase img hfit
  exact ⟨{ State.reset with mem := m }, loadImage_eq_some hm, memWriteAll_reset_get hm,
    rfl, rfl, rfl, rfl, rfl, rfl, rfl, rfl⟩

end Sys2Proof.Proofs

/-! The decoder and the encoder (30_encoding.md R50 to R57). -/

namespace Sys2Proof.Proofs

open Sys2Proof Sys2Proof.Machine

/-- The converse of `decode_ok`: the opcode byte and the operand bytes that belong to the instruction fix the decoding. -/
theorem decode_of_prefix {w : Window} {i : Instr} (ho : i.opcode = w.opcode) (h : i.operands <+: [w.a, w.b]) :
    decode w = .ok i := by
  obtain ⟨o, a, b⟩ := w
  subst ho
  cases i with
  | ldi | mul | add | cmp =>
    obtain ⟨rfl, h⟩ := List.cons_prefix_cons.1 h
    obtain ⟨rfl, -⟩ := List.cons_prefix_cons.1 h
    rfl
  | prn | push | pop | call | jmp | jeq | jne =>
    obtain ⟨rfl, -⟩ := List.cons_prefix_cons.1 h
    rfl
  | hlt | ret => rfl

/-- No format has more than two operand bytes (R51). -/
theorem length_operands_le (i : Instr) : i.operands.length ≤ 2 := by
  cases i <;> simp [Instr.operands]

/-- A lookup answers a row exactly for the opcode bytes of the Instruction Table (R55). -/
theorem lookup_isSome_iff (o : Byte) : (lookup o).isSome = true ↔ o ∈ instructionTable.map (·.opcode) := by
  simp [lookup, List.find?_isSome]

/-- Without a row the decoder rejects the opcode by name (R55). -/
theorem decode_of_lookup_none {w : Window} (h : lookup w.opcode = none) :
    decode w = .error (.unknownOpcode w.opcode) := by
  simp only [decode, h]

/-- Settles O3: the first two bytes after the opcode begin with the operands, since there are at most two of them, and the
decoder looks at nothing else. -/
theorem encodeThenDecodeGivesTheInstruction : Obligations.EncodeThenDecodeGivesTheInstruction := by
  intro i rest hlen
  have htwo : 2 ≤ (i.operands ++ rest).length := by
    rw [List.length_append]
    simp only [Instr.length] at hlen
    omega
  match hbytes : i.operands ++ rest, htwo with
  | a :: b :: tail, _ =>
    refine ⟨⟨i.opcode, a, b⟩, by simp [encode, hbytes, Window.ofBytes], decode_of_prefix rfl ?_⟩
    have hops : i.operands <+: a :: b :: tail := hbytes ▸ List.prefix_append _ _
    exact List.prefix_of_prefix_length_le hops ⟨tail, rfl⟩ (length_operands_le i)

/-- Settles O2: the listed bytes are the table's opcode column, so a listed byte has a row and any other byte has none. -/
theorem decodesExactlyTheThirteenOpcodes : Obligations.DecodesExactlyTheThirteenOpcodes := by
  refine ⟨fun w hmem => ?accepted, fun w hmem => ?rejected, by decide, rfl, by decide⟩
  case accepted =>
    obtain ⟨row, hrow⟩ := Option.isSome_iff_exists.1 ((lookup_isSome_iff w.opcode).2 hmem)
    have hd : decode w = .ok (row.make w.a w.b) := by simp only [decode, hrow]
    exact ⟨_, hd, (decode_ok hd).1⟩
  case rejected =>
    exact decode_of_lookup_none (Option.not_isSome_iff_eq_none.1 fun h => hmem ((lookup_isSome_iff w.opcode).1 h))

/-- Settles O4: the window's two operand bytes begin with the instruction's, so taking the instruction's length gives them. -/
theorem decodedWindowBeginsWithTheEncoding : Obligations.DecodedWindowBeginsWithTheEncoding := by
  intro w i hd
  obtain ⟨ho, hops⟩ := decode_ok hd
  rw [Window.bytes, encode, Instr.length, Nat.add_comm, List.take_succ_cons, ← List.prefix_iff_eq_take.1 hops, ho]

/-- Settles O5: with no operand, or one, what `decode_of_prefix` asks of the window says nothing of the other bytes. -/
theorem bytesOutsideTheInstructionAreIgnored : Obligations.BytesOutsideTheInstructionAreIgnored := by
  intro o a b i hd
  obtain ⟨ho, hops⟩ := decode_ok hd
  refine ⟨fun hlen a' b' => decode_of_prefix ho ?one, fun hlen b' => decode_of_prefix ho ?two⟩
  case one =>
    have hnil : i.operands = [] := List.length_eq_zero_iff.1 (by simpa [Instr.length] using hlen)
    rw [hnil]
    exact List.nil_prefix
  case two =>
    have hone : i.operands.length ≤ [a].length := by simp [Instr.length] at hlen ⊢; omega
    exact (List.prefix_of_prefix_length_le hops (List.prefix_append [a] [b]) hone).trans (List.prefix_append [a] [b'])

/-- Settles O1: ten table lookups. -/
theorem decodesWordsWrittenFromTheMap : Obligations.DecodesWordsWrittenFromTheMap := by
  refine ⟨?_, ?_, ?_, ?_, ?_, ?_, ?_, ?_, ?_, ?_⟩ <;> exact decode_of_prefix rfl (by decide)

end Sys2Proof.Proofs

/-! Memory, reset and launch (20_memory.md R30 to R32, R43; 10_state.md R26). -/

namespace Sys2Proof.Proofs

open Sys2Proof Sys2Proof.Machine

/-- The canonical form of a cell and the rest, taken apart. -/
theorem wfFrom_cons {lo k : Nat} {v : Byte} {rest : Memory} :
    Memory.wfFrom lo ((k, v) :: rest) = true ↔ lo ≤ k ∧ k < 256 ∧ v ≠ 0 ∧ Memory.wfFrom (k + 1) rest = true := by
  simp [Memory.wfFrom, and_assoc]

/-- Below the first address a canonical list may name, every cell reads 0x00. -/
theorem get_of_lt_wfFrom {m : Memory} {lo a : Nat} (h : Memory.wfFrom lo m = true) (ha : a < lo) : m.get a = 0 := by
  induction m generalizing lo with
  | nil => rfl
  | cons cell rest ih =>
    obtain ⟨k, v⟩ := cell
    obtain ⟨hlo, -, -, hrest⟩ := wfFrom_cons.1 h
    have hne : k ≠ a := by omega
    rw [Memory.get, if_neg hne]
    exact ih hrest (by omega)

/-- The first listed address of a canonical list does not read 0x00. -/
theorem get_head_ne_zero {lo k : Nat} {v : Byte} {rest : Memory} (h : Memory.wfFrom lo ((k, v) :: rest) = true) :
    Memory.get ((k, v) :: rest) k ≠ 0 := by
  obtain ⟨-, -, hv, -⟩ := wfFrom_cons.1 h
  rwa [Memory.get, if_pos rfl]

/-- Of two canonical lists that read alike, neither begins before the other. -/
theorem head_le_of_get_eq {lo k : Nat} {v : Byte} {rest m : Memory} (h : Memory.wfFrom lo ((k, v) :: rest) = true)
    {k' : Nat} (h' : Memory.wfFrom k' m = true) (hget : ∀ a, Memory.get ((k, v) :: rest) a = m.get a) : k' ≤ k := by
  by_contra hlt
  exact get_head_ne_zero h ((hget k).trans (get_of_lt_wfFrom h' (by omega)))

/-- Canonical lists that read alike are equal, from any lower bound on. -/
theorem eq_of_get_eq {m m' : Memory} {lo : Nat} (h : Memory.wfFrom lo m = true) (h' : Memory.wfFrom lo m' = true)
    (hget : ∀ a, m.get a = m'.get a) : m = m' := by
  induction m generalizing m' lo with
  | nil =>
    cases m' with
    | nil => rfl
    | cons cell' rest' => exact absurd (hget cell'.1).symm (get_head_ne_zero h')
  | cons cell rest ih =>
    obtain ⟨k, v⟩ := cell
    cases m' with
    | nil => exact absurd (hget k) (get_head_ne_zero h)
    | cons cell' rest' =>
      obtain ⟨k', v'⟩ := cell'
      obtain ⟨-, hk, hv, hrest⟩ := wfFrom_cons.1 h
      obtain ⟨-, hk', hv', hrest'⟩ := wfFrom_cons.1 h'
      have hkk : k = k' := Nat.le_antisymm
        (head_le_of_get_eq h' (wfFrom_cons.2 ⟨le_rfl, hk, hv, hrest⟩) fun a => (hget a).symm)
        (head_le_of_get_eq h (wfFrom_cons.2 ⟨le_rfl, hk', hv', hrest'⟩) hget)
      subst hkk
      have hvv : v = v' := by simpa [Memory.get] using hget k
      have htail : rest = rest' := ih hrest hrest' fun a => by
        rcases Nat.lt_or_ge a (k + 1) with ha | ha
        · rw [get_of_lt_wfFrom hrest ha, get_of_lt_wfFrom hrest' ha]
        · have hne : k ≠ a := by omega
          simpa [Memory.get, hne] using hget a
      rw [hvv, htail]

/-- Settles O7, from address 0 on. -/
theorem canonicalMemoriesThatReadAlikeAreEqual : Obligations.CanonicalMemoriesThatReadAlikeAreEqual :=
  fun _ _ h h' hget => eq_of_get_eq h h' hget

/-- MemRead fails exactly outside 0 to 255 (R31, R112). -/
theorem memRead_eq_error_iff (m : Memory) (addr : Nat) : memRead m addr = .error addr ↔ 256 ≤ addr := by
  rcases Nat.lt_or_ge addr 256 with h | h
  · simp [memRead_in m h, h]
  · simp [memRead_out m h, h]

/-- MemWrite in range (R32). -/
theorem memWrite_in (m : Memory) {addr : Nat} (v : Byte) (h : addr < 256) : memWrite m addr v = .ok (m.set addr v) :=
  if_pos h

/-- MemWrite out of range (R32). -/
theorem memWrite_out (m : Memory) {addr : Nat} (v : Byte) (h : 256 ≤ addr) : memWrite m addr v = .error addr :=
  if_neg (Nat.not_lt.2 h)

/-- MemWrite fails exactly outside 0 to 255 (R32, R112). -/
theorem memWrite_eq_error_iff (m : Memory) (addr : Nat) (v : Byte) : memWrite m addr v = .error addr ↔ 256 ≤ addr := by
  rcases Nat.lt_or_ge addr 256 with h | h
  · simp [memWrite_in m v h, h]
  · simp [memWrite_out m v h, h]

/-- Settles O6: in range the read and the write succeed, and `Memory.get_set` says what the new memory reads as; out of
range both fail. -/
theorem memoryAccessContract : Obligations.MemoryAccessContract := by
  intro m addr v
  refine ⟨fun h => ?inRange, fun h => ⟨memRead_out m h, memWrite_out m v h⟩⟩
  case inRange =>
    have hlt : addr < 256 := by omega
    refine ⟨memRead_in m hlt, m.set addr v, memWrite_in m v hlt, ?_, fun c hc => Memory.get_set_ne m v hc⟩
    rw [memRead_in _ hlt, Memory.get_set_same]

/-- Settles O8: each field is written out in `State.reset`; the registers are eight cases. -/
theorem resetValues : Obligations.ResetValues :=
  ⟨Memory.get_nil, by decide, rfl, rfl, rfl, rfl, rfl, rfl, rfl⟩

/-- A RUNNING core at PC 0 with FL 0x00 and no error meets the invariant as soon as its memory is canonical. -/
theorem inv_of_start {s : State} (hmem : s.mem.wf = true) (hpc : s.pc = 0) (hfl : s.fl = 0) (hrun : s.run = .running)
    (herr : s.err = none) : Inv s where
  memory := hmem
  pc := by omega
  fl := .inl hfl
  running := fun _ => herr
  halted := fun h => by rw [hrun] at h; cases h
  faulted := fun h => by rw [hrun] at h; cases h

/-- Settles O9. -/
theorem resetMeetsTheInvariant : Obligations.ResetMeetsTheInvariant :=
  inv_of_start State.reset_mem_wf rfl rfl rfl rfl

/-- A launch state is reset with the memory the image's writes leave (R131). -/
theorem launch_eq_some {img : List Byte} {s : State} (h : launch img = some s) :
    ∃ m, memWriteAll State.reset.mem Config.loadBase img = .ok m ∧ s = { State.reset with mem := m } := by
  unfold launch State.loadImage at h
  split at h
  · next m hm => exact ⟨m, hm, (Option.some.inj h).symm⟩
  · cases h

/-- An image that does not fit has no launch state (D13). -/
theorem launch_long {img : List Byte} (h : 256 < img.length) : launch img = none := by
  obtain ⟨e, he⟩ := memWriteAll_long State.reset.mem Config.loadBase img (by decide) (by simpa using h)
  simp only [launch, State.loadImage, he]

/-- Settles O11: writing keeps memory canonical, and an image with a launch state is not one that fails to fit. -/
theorem launchMeetsTheInvariantOrIsRefused : Obligations.LaunchMeetsTheInvariantOrIsRefused := by
  intro img
  refine ⟨fun s hs => ⟨?inv, ?fits⟩, launch_long⟩
  case inv =>
    obtain ⟨m, hm, rfl⟩ := launch_eq_some hs
    exact inv_of_start (memWriteAll_wf hm State.reset_mem_wf) rfl rfl rfl rfl
  case fits =>
    by_contra hlong
    rw [launch_long (by omega)] at hs
    cases hs

end Sys2Proof.Proofs

/-! What each instruction does when its operands are good, and when one is bad (40_fetch_decode_dispatch.md R73, R75). -/

namespace Sys2Proof.Proofs

open Sys2Proof Sys2Proof.Machine

/-- `Completes s i t`: the handler of `i`, with good register operands, takes `s` to `t`. One constructor per instruction;
`exec_cases` ties it to `exec`. -/
inductive Completes (s : State) : Instr → State → Prop
  | ldi {a b : Byte} {r : Reg} (ha : a.toNat = r) : Completes s (.ldi a b) ((s.setReg r b.toNat).addPc 3)
  | prn {a : Byte} {r : Reg} (ha : a.toNat = r) : Completes s (.prn a) ((s.emit (s.reg r)).addPc 2)
  | hlt : Completes s .hlt s.halt
  | mul {a b : Byte} {ra rb : Reg} (ha : a.toNat = ra) (hb : b.toNat = rb) :
      Completes s (.mul a b) ((s.setReg ra (s.val ra * s.val rb)).addPc 3)
  | add {a b : Byte} {ra rb : Reg} (ha : a.toNat = ra) (hb : b.toNat = rb) :
      Completes s (.add a b) ((s.setReg ra (s.val ra + s.val rb)).addPc 3)
  | push {a : Byte} {r : Reg} (ha : a.toNat = r) :
      Completes s (.push a) ((s.decSp.storeAtSp (s.decSp.reg r)).addPc 2)
  | pop {a : Byte} {r : Reg} (ha : a.toNat = r) : Completes s (.pop a) ((s.setReg r s.loadAtSp.toNat).incSp.addPc 2)
  | call {a : Byte} {r : Reg} (ha : a.toNat = r) :
      Completes s (.call a) ((s.decSp.storeAtSp (trunc8 (s.pc + 2))).setPc (s.decSp.reg r).toNat)
  | ret : Completes s .ret (s.setPc s.loadAtSp.toNat).incSp
  | cmp {a b : Byte} {ra rb : Reg} (ha : a.toNat = ra) (hb : b.toNat = rb) :
      Completes s (.cmp a b) ((s.setFl (compareFlags (s.reg ra) (s.reg rb))).addPc 3)
  | jmp {a : Byte} {r : Reg} (ha : a.toNat = r) : Completes s (.jmp a) (s.setPc (s.reg r).toNat)
  | jeq {a : Byte} {r : Reg} (ha : a.toNat = r) :
      Completes s (.jeq a) (s.setPc (if s.flEqual then (s.reg r).toNat else s.pc + 2))
  | jne {a : Byte} {r : Reg} (ha : a.toNat = r) :
      Completes s (.jne a) (s.setPc (if s.flEqual then s.pc + 2 else (s.reg r).toNat))

/-! ## The operand check -/

/-- A good operand byte is some register's number. -/
theorem exists_reg_of_ok {b : Byte} (h : regByteOk b = true) : ∃ r : Reg, b.toNat = r :=
  (operandReg_of_ok h).imp fun _ hr => operandReg_eq_some.1 hr

theorem withReg_good {opcode b : Byte} {r : Reg} (s : State) (k : Reg → Result) (h : b.toNat = r) :
    withReg opcode b s k = k r :=
  withReg_some s k (operandReg_eq_some.2 h)

theorem withRegs_good {opcode a b : Byte} {ra rb : Reg} (s : State) (k : Reg → Reg → Result) (ha : a.toNat = ra)
    (hb : b.toNat = rb) : withRegs opcode a b s k = k ra rb :=
  withRegs_some s k (operandReg_eq_some.2 ha) (operandReg_eq_some.2 hb)

theorem regByteOk_eq_false {b : Byte} : regByteOk b = false ↔ 8 ≤ b.toNat := by
  simp [regByteOk]

/-- An instruction is well formed exactly when it has no first bad operand. -/
theorem firstBadOperand_eq_none {i : Instr} : i.firstBadOperand = none ↔ i.wellFormed = true := by
  simp [Instr.firstBadOperand, Instr.wellFormed]

/-- With one register operand, the first bad operand is that one. -/
theorem withReg_firstBad {opcode a x : Byte} (s : State) (k : Reg → Result)
    (h : [a].find? (fun b => !regByteOk b) = some x) : withReg opcode a s k = .next (badOperand opcode x s) := by
  have hx : x = a := by simpa using List.mem_of_find?_eq_some h
  subst hx
  exact withReg_none s k (regByteOk_eq_false.1 (by simpa using List.find?_some h))

/-- With two register operands, `a` is checked before `b` (R75). -/
theorem withRegs_firstBad {opcode a b x : Byte} (s : State) (k : Reg → Reg → Result)
    (h : [a, b].find? (fun b => !regByteOk b) = some x) : withRegs opcode a b s k = .next (badOperand opcode x s) := by
  cases hok : regByteOk a with
  | false => exact withReg_firstBad s _ (by simpa [List.find?_cons, hok] using h)
  | true =>
    obtain ⟨ra, ha⟩ := exists_reg_of_ok hok
    rw [withRegs, withReg_good s _ ha]
    exact withReg_firstBad s _ (by simpa [List.find?_cons, hok] using h)

/-! ## The two things a handler can do -/

/-- A handler whose first bad operand is `x` raises InvalidRegisterError with it and does nothing else (R113, R116). -/
theorem exec_firstBad {i : Instr} {x : Byte} (s : State) (h : i.firstBadOperand = some x) :
    exec i s = .next (badOperand i.opcode x s) := by
  cases i with
  | ldi | prn | push | pop | call | jmp | jeq | jne => exact withReg_firstBad s _ h
  | mul | add | cmp => exact withRegs_firstBad s _ h
  | hlt | ret => cases h

/-- A handler whose operands are good answers the state `Completes` names. -/
theorem Completes.exec_eq {s t : State} {i : Instr} (h : Completes s i t) : exec i s = .next t := by
  cases h with
  | ldi ha | prn ha | push ha | pop ha | call ha | jmp ha => exact withReg_good s _ ha
  | mul ha hb | add ha hb | cmp ha hb => exact withRegs_good s _ ha hb
  | hlt | ret => rfl
  | jeq ha | jne ha =>
    refine (withReg_good s _ ha).trans ?_
    cases s.flEqual <;> rfl

/-- Every well-formed instruction completes from every state (R75). -/
theorem exists_completes {i : Instr} (s : State) (h : i.wellFormed = true) : ∃ t, Completes s i t := by
  cases i with
  | hlt => exact ⟨_, .hlt⟩
  | ret => exact ⟨_, .ret⟩
  | mul | add | cmp =>
    simp only [Instr.wellFormed, Instr.regOperands, List.all_cons, List.all_nil, Bool.and_true, Bool.and_eq_true] at h
    obtain ⟨ra, ha⟩ := exists_reg_of_ok h.1
    obtain ⟨rb, hb⟩ := exists_reg_of_ok h.2
    constructor
    constructor <;> assumption
  | ldi | prn | push | pop | call | jmp | jeq | jne =>
    simp only [Instr.wellFormed, Instr.regOperands, List.all_cons, List.all_nil, Bool.and_true] at h
    obtain ⟨r, hr⟩ := exists_reg_of_ok h
    constructor
    constructor
    assumption

/-- Everything a handler can do: raise InvalidRegisterError with the first bad operand, or complete. -/
theorem exec_cases (i : Instr) (s : State) :
    (∃ x, i.firstBadOperand = some x ∧ exec i s = .next (badOperand i.opcode x s)) ∨
      (i.wellFormed = true ∧ ∃ t, Completes s i t ∧ exec i s = .next t) := by
  cases h : i.firstBadOperand with
  | some x => exact .inl ⟨x, rfl, exec_firstBad s h⟩
  | none =>
    have hwf := firstBadOperand_eq_none.1 h
    obtain ⟨t, ht⟩ := exists_completes s hwf
    exact .inr ⟨hwf, t, ht, ht.exec_eq⟩

/-- The same, of the next state a handler has answered. -/
theorem exec_next_cases {i : Instr} {s t : State} (h : exec i s = .next t) :
    (∃ x, i.firstBadOperand = some x ∧ t = badOperand i.opcode x s) ∨ (i.wellFormed = true ∧ Completes s i t) := by
  rcases exec_cases i s with ⟨x, hx, e⟩ | ⟨hwf, u, hu, e⟩
  · exact .inl ⟨x, hx, Host.Outcome.next.inj (h.symm.trans e)⟩
  · exact .inr ⟨hwf, Host.Outcome.next.inj (h.symm.trans e) ▸ hu⟩

/-! ## What a completed handler changes, field by field -/

section
variable {s t : State} {i : Instr}

/-- ERR and the trace port are no handler's, and the run state is HLT's alone. -/
theorem Completes.control (h : Completes s i t) :
    t.err = s.err ∧ t.traceOn = s.traceOn ∧ t.trace = s.trace ∧ t.run = if i = .hlt then .halted else s.run := by
  cases h <;> exact ⟨rfl, rfl, rfl, rfl⟩

theorem Completes.err_eq (h : Completes s i t) : t.err = s.err :=
  h.control.1

/-- FL is CMP's alone (10_state.md R18). -/
theorem Completes.fl (h : Completes s i t) :
    t.fl = s.fl ∨ ∃ (a b : Byte) (x y : Byte), i = .cmp a b ∧ t.fl = compareFlags x y := by
  cases h with
  | cmp => exact .inr ⟨_, _, _, _, rfl, compareFlags_masked _ _⟩
  | _ => exact .inl rfl

/-- Memory is written by PUSH and CALL alone, one cell below the pointer (20_memory.md R33). -/
theorem Completes.mem (h : Completes s i t) :
    t.mem = s.mem ∨
      ∃ (a v : Byte), (i = .push a ∨ i = .call a) ∧ t.mem = s.mem.set (s.reg 7 - 1).toNat v := by
  cases h with
  | push => exact .inr ⟨_, _, .inl rfl, State.mem_pushed s _⟩
  | call => exact .inr ⟨_, _, .inr rfl, State.mem_pushed s _⟩
  | _ => exact .inl rfl

/-- OUT is appended to by PRN alone (10_state.md R21). -/
theorem Completes.out (h : Completes s i t) :
    t.out = s.out ∨ ∃ (a : Byte) (r : Reg), i = .prn a ∧ a.toNat = r ∧ t.out = s.out ++ [s.reg r] := by
  cases h with
  | prn ha => exact .inr ⟨_, _, rfl, ha, rfl⟩
  | _ => exact .inl rfl

/-- The PC moves forward by at most three, or takes a byte (R15, R16). -/
theorem Completes.pc_le (h : Completes s i t) : t.pc ≤ s.pc + 3 ∨ ∃ b : Byte, t.pc = b.toNat := by
  cases h with
  | ldi | prn | mul | add | push | pop | cmp => exact .inl (Nat.add_le_add_left (by decide) s.pc)
  | hlt => exact .inl (Nat.le_add_right s.pc 3)
  | call | ret | jmp => exact .inr ⟨_, rfl⟩
  | jeq =>
    rw [State.setPc_pc]
    split
    · exact .inr ⟨_, rfl⟩
    · exact .inl (by omega)
  | jne =>
    rw [State.setPc_pc]
    split
    · exact .inl (by omega)
    · exact .inr ⟨_, rfl⟩

/-- `i` may write `x[q]`: the register operand `a` names for LDI, MUL, ADD and POP, and x[7] for the stack instructions
(10_state.md R10; 90_conflicts.md C3). -/
def MayWriteReg (i : Instr) (q : Reg) : Prop :=
  (∃ a b : Byte, a.toNat = q ∧ (i = .ldi a b ∨ i = .mul a b ∨ i = .add a b ∨ i = .pop a)) ∨
    (q = 7 ∧ ∃ a : Byte, i = .push a ∨ i = .pop a ∨ i = .call a ∨ i = .ret)

theorem reg_setReg_or (s : State) (r : Reg) (v : Int) (q : Reg) : (s.setReg r v).reg q = s.reg q ∨ q = r :=
  or_iff_not_imp_right.2 fun hq => State.reg_setReg_ne s v hq

/-- Registers are written by the instructions of `MayWriteReg` alone. -/
theorem Completes.reg (h : Completes s i t) (q : Reg) : t.reg q = s.reg q ∨ MayWriteReg i q := by
  cases h with
  | ldi ha => exact (reg_setReg_or s _ _ q).imp id fun hq => .inl ⟨_, _, hq ▸ ha, .inl rfl⟩
  | mul ha => exact (reg_setReg_or s _ _ q).imp id fun hq => .inl ⟨_, _, hq ▸ ha, .inr (.inl rfl)⟩
  | add ha => exact (reg_setReg_or s _ _ q).imp id fun hq => .inl ⟨_, _, hq ▸ ha, .inr (.inr (.inl rfl))⟩
  | push => exact (reg_setReg_or s 7 _ q).imp id fun hq => .inr ⟨hq, _, .inl rfl⟩
  | @pop a r ha =>
    rcases reg_setReg_or (s.setReg r s.loadAtSp.toNat) 7 _ q with h7 | hq
    · exact (reg_setReg_or s r _ q).imp h7.trans fun hq => .inl ⟨a, 0, (hq : q = r) ▸ ha, .inr (.inr (.inr rfl))⟩
    · exact .inr (.inr ⟨hq, a, .inr (.inl rfl)⟩)
  | call => exact (reg_setReg_or s 7 _ q).imp id fun hq => .inr ⟨hq, _, .inr (.inr (.inl rfl))⟩
  | ret => exact (reg_setReg_or s 7 _ q).imp id fun hq => .inr ⟨hq, 0, .inr (.inr (.inr rfl))⟩
  | _ => exact .inl rfl

/-- All instructions but HLT leave the run state, ERR and the trace port alone. -/
theorem Completes.sameControl (h : Completes s i t) (hi : i ≠ .hlt) : SameControl s t := by
  obtain ⟨herr, hon, htrace, hrun⟩ := h.control
  exact ⟨hrun.trans (if_neg hi), herr, hon, htrace⟩

/-- A completed handler leaves a RUNNING core RUNNING or HALTED. -/
theorem Completes.run_ne_faulted (h : Completes s i t) (hs : s.run = .running) : t.run ≠ .faulted := by
  obtain ⟨-, -, -, hrun⟩ := h.control
  rw [hrun, hs]
  split <;> decide

end

/-! ## The statements on all handlers at once -/

/-- Settles O18: `badOperand` is the state the statement writes out. -/
theorem badRegisterOperandIsFatal : Obligations.BadRegisterOperandIsFatal :=
  fun _ _ s h => exec_firstBad s h

/-- Settles O19: a well-formed instruction completes, and `Completes.control` gives the frame. -/
theorem wellFormedHandlersComplete : Obligations.WellFormedHandlersComplete := by
  intro i s hwf
  obtain ⟨t, ht⟩ := exists_completes s hwf
  exact ⟨t, ht.exec_eq, ht.control⟩

end Sys2Proof.Proofs

/-! The instructions one by one (41_load_print_halt.md to 45_compare_and_branch.md). -/

namespace Sys2Proof.Proofs

open Sys2Proof Sys2Proof.Machine

/-! ## Values -/

/-- trunc8 of a natural number is its remainder modulo 256. -/
theorem toNat_trunc8_natCast (n : Nat) : (trunc8 (n : Int)).toNat = n % 256 := by
  have h := trunc8_toNat n
  omega

/-- The return address of a CALL that can be fetched fits a byte (R95). -/
theorem toNat_trunc8_pc {pc : Nat} (h : pc ≤ 253) : (trunc8 ((pc : Int) + 2)).toNat = pc + 2 := by
  have h := trunc8_toNat ((pc : Int) + 2)
  omega

/-- The cell just below the old pointer holds the pushed byte (R90, R95). -/
theorem get_pushed_same (s : State) (v : Byte) : (s.decSp.storeAtSp v).mem.get (s.reg 7 - 1).toNat = v := by
  rw [State.mem_pushed, Memory.get_set_same]

/-- A push reaches no other cell (20_memory.md R33). -/
theorem get_pushed_ne (s : State) (v : Byte) {c : Nat} (h : c ≠ (s.reg 7 - 1).toNat) :
    (s.decSp.storeAtSp v).mem.get c = s.mem.get c := by
  rw [State.mem_pushed, Memory.get_set_ne _ _ h]

theorem reg_decSp_seven (s : State) : s.decSp.reg 7 = s.reg 7 - 1 :=
  (State.reg_decSp s 7).trans (if_pos rfl)

theorem reg_decSp_ne (s : State) {q : Reg} (h : q ≠ 7) : s.decSp.reg q = s.reg q :=
  (State.reg_decSp s q).trans (if_neg h)

theorem reg_incSp_seven (s : State) : s.incSp.reg 7 = s.reg 7 + 1 :=
  (State.reg_incSp s 7).trans (if_pos rfl)

theorem reg_incSp_ne (s : State) {q : Reg} (h : q ≠ 7) : s.incSp.reg q = s.reg q :=
  (State.reg_incSp s q).trans (if_neg h)

theorem compareFlags_of_eq {x y : Byte} (h : x = y) : compareFlags x y = 0x01 :=
  if_pos h

theorem compareFlags_of_lt {x y : Byte} (h : x.toNat < y.toNat) : compareFlags x y = 0x04 :=
  (if_neg fun e => (congrArg BitVec.toNat e).not_lt h).trans (if_pos h)

theorem compareFlags_of_gt {x y : Byte} (h : y.toNat < x.toNat) : compareFlags x y = 0x02 :=
  (if_neg fun e => (congrArg BitVec.toNat e).not_gt h).trans (if_neg h.not_gt)

/-- The E bit of a comparison's outcome says whether the two bytes are equal (R17, R100). -/
theorem compareFlags_equalBit (x y : Byte) : (compareFlags x y).getLsbD 0 = decide (x = y) := by
  by_cases h : x = y
  · rw [compareFlags_of_eq h, decide_eq_true h]; rfl
  · rw [decide_eq_false h]
    rcases Nat.lt_or_gt_of_ne (fun e => h (BitVec.eq_of_toNat_eq e)) with hlt | hgt
    · rw [compareFlags_of_lt hlt]; rfl
    · rw [compareFlags_of_gt hgt]; rfl

/-! ## A bad operand -/

/-- Taking an error is failing with it (R116). -/
theorem failed_raise (e : ErrorRecord) (s : State) : Failed e s (s.raise e) :=
  ⟨rfl, rfl, rfl, rfl, rfl, rfl, rfl, rfl, rfl⟩

/-- A bad first operand is the first bad operand. -/
theorem find_bad_first {a : Byte} (rest : List Byte) (h : 8 ≤ a.toNat) :
    (a :: rest).find? (fun b => !regByteOk b) = some a := by
  simp [regByteOk_eq_false.2 h]

/-- After a good operand the search goes on. -/
theorem find_bad_second {a b : Byte} (ha : a.toNat < 8) (hb : 8 ≤ b.toNat) :
    [a, b].find? (fun b => !regByteOk b) = some b := by
  have hok : regByteOk a = true := decide_eq_true ha
  simp [hok, regByteOk_eq_false.2 hb]

/-! ## Load immediate, print, halt -/

/-- Settles O24: an immediate is a byte, so `trunc8` keeps it. -/
theorem ldiLoadsTheImmediate : Obligations.LdiLoadsTheImmediate := by
  refine ⟨fun a b => rfl, fun a b r s ha => ?good, fun a b s h8 => ?bad⟩
  case good =>
    have hc := Completes.ldi (s := s) (b := b) ha
    refine ⟨_, hc.exec_eq, ?_, fun q hq => State.reg_setReg_ne s _ hq, rfl, rfl, fun _ => rfl, rfl,
      hc.sameControl (by simp)⟩
    rw [State.reg_addPc, State.reg_setReg_same, trunc8_byte]
  case bad => exact ⟨_, _, exec_firstBad s (find_bad_first [] h8), rfl, failed_raise _ s⟩

/-- Settles O25: the shown lines map over OUT, so one appended byte is one appended line. -/
theorem prnAppendsToOut : Obligations.PrnAppendsToOut := by
  refine ⟨fun a b => rfl, fun a r s ha => ?good, fun a s h8 => ?bad⟩
  case good =>
    have hc := Completes.prn (s := s) ha
    exact ⟨_, hc.exec_eq, rfl, List.map_append, fun _ => rfl, rfl, rfl, fun _ => rfl, hc.sameControl (by simp)⟩
  case bad => exact ⟨_, _, exec_firstBad s (find_bad_first [] h8), rfl, failed_raise _ s⟩

/-! ## Arithmetic -/

/-- Settles O27: `trunc8` of the exact sum is the sum modulo 256. -/
theorem addAddsModulo256 : Obligations.AddAddsModulo256 := by
  refine ⟨fun a b => rfl, fun a b ra rb s ha hb => ?good, fun a b s h8 => ?badA, fun a b s ha h8 => ?badB⟩
  case good =>
    have hc := Completes.add (s := s) ha hb
    refine ⟨_, hc.exec_eq, ?_, fun q hq => State.reg_setReg_ne s _ hq, rfl, rfl, fun _ => rfl, rfl,
      hc.sameControl (by simp)⟩
    rw [State.reg_addPc, State.reg_setReg_same, State.val, State.val, ← Int.natCast_add, toNat_trunc8_natCast]
  case badA => exact ⟨_, _, exec_firstBad s (find_bad_first [b] h8), rfl, rfl, failed_raise _ s⟩
  case badB => exact ⟨_, _, exec_firstBad s (find_bad_second ha h8), rfl, rfl, failed_raise _ s⟩

/-- Settles O28: `trunc8` of the exact product is the product modulo 256. -/
theorem mulKeepsTheLowByte : Obligations.MulKeepsTheLowByte := by
  refine ⟨fun a b => rfl, fun a b ra rb s ha hb => ?_⟩
  have hc := Completes.mul (s := s) ha hb
  refine ⟨_, hc.exec_eq, ?_, fun q hq => State.reg_setReg_ne s _ hq, rfl, rfl, fun _ => rfl, rfl,
    hc.sameControl (by simp)⟩
  rw [State.reg_addPc, State.reg_setReg_same, State.val, State.val, ← Int.natCast_mul, toNat_trunc8_natCast]

/-! ## Stack and subroutines -/

/-- Settles O29: the register is read after the decrement, which decides the case of register 7. -/
theorem pushStoresBelowThePointer : Obligations.PushStoresBelowThePointer := by
  intro a r s ha
  have hc := Completes.push (s := s) ha
  exact ⟨_, hc.exec_eq, reg_decSp_seven s, fun q hq => reg_decSp_ne s hq,
    (get_pushed_same s _).trans (State.reg_decSp s r), fun c hne => get_pushed_ne s _ hne, rfl, rfl, rfl,
    hc.sameControl (by simp)⟩

/-- Settles O30: the increment comes after the load, so for register 7 it acts on the loaded byte. -/
theorem popLoadsFromThePointer : Obligations.PopLoadsFromThePointer := by
  intro a r s ha
  have hc := Completes.pop (s := s) ha
  refine ⟨_, hc.exec_eq, fun hr => ⟨?loaded, ?pointer⟩, fun hr => ?seven, fun q hqr hq7 => ?frame, fun _ => rfl, rfl, rfl,
    rfl, hc.sameControl (by simp)⟩
  case loaded => rw [State.reg_addPc, reg_incSp_ne _ hr, State.reg_setReg_same, trunc8_byte, State.loadAtSp_eq]
  case pointer => rw [State.reg_addPc, reg_incSp_seven, State.reg_setReg_ne _ _ (Ne.symm hr)]
  case seven =>
    subst hr
    rw [State.reg_addPc, reg_incSp_seven, State.reg_setReg_same, trunc8_byte, State.loadAtSp_eq]
  case frame => rw [State.reg_addPc, reg_incSp_ne _ hq7, State.reg_setReg_ne _ _ hqr]

/-- Settles O31: the register is read after the decrement; up to pc 253 the return address fits the stored byte. -/
theorem callPushesTheReturnAddress : Obligations.CallPushesTheReturnAddress := by
  intro a r s ha
  have hc := Completes.call (s := s) ha
  exact ⟨_, hc.exec_eq, congrArg BitVec.toNat (State.reg_decSp s r), reg_decSp_seven s, fun q hq => reg_decSp_ne s hq,
    fun hpc => (congrArg BitVec.toNat (get_pushed_same s _)).trans (toNat_trunc8_pc hpc),
    fun c hne => get_pushed_ne s _ hne, rfl, rfl, hc.sameControl (by simp)⟩

/-- Settles O32: the load reads the pointer as it was before the increment. -/
theorem retPopsThePc : Obligations.RetPopsThePc := by
  intro s
  have hc := Completes.ret (s := s)
  exact ⟨_, hc.exec_eq, congrArg BitVec.toNat (State.loadAtSp_eq s), reg_incSp_seven _, fun q hq => reg_incSp_ne _ hq,
    fun _ => rfl, rfl, rfl, hc.sameControl (by simp)⟩

/-- Settles O33: what the PUSH stored is what the POP loads, and x - 1 + 1 = x modulo 256. -/
theorem pushThenPopRestores : Obligations.PushThenPopRestores := by
  intro a c ra rc s t u ha hc hra hrc hpush hptr hcell
  obtain ⟨t', ht', hsp, -, hstored, -⟩ := pushStoresBelowThePointer a ra s ha
  obtain rfl : t = t' := Host.Outcome.next.inj (hpush.symm.trans ht')
  obtain ⟨v, hv, hpop, -⟩ := popLoadsFromThePointer c rc u hc
  obtain ⟨hloaded, hsp'⟩ := hpop hrc
  refine ⟨v, hv, ?value, ?pointer⟩
  case value => rw [hloaded, hptr, hcell, hsp, hstored, if_neg hra]
  case pointer => rw [hsp', hptr, hsp, BitVec.sub_add_cancel]

/-- Settles O34: what the CALL stored is where the RET goes, and x - 1 + 1 = x modulo 256. -/
theorem callThenRetReturns : Obligations.CallThenRetReturns := by
  intro a r s t u ha hpc hcall hptr hcell
  obtain ⟨t', ht', -, hsp, -, hstored, -⟩ := callPushesTheReturnAddress a r s ha
  obtain rfl : t = t' := Host.Outcome.next.inj (hcall.symm.trans ht')
  obtain ⟨v, hv, hret, hsp', -⟩ := retPopsThePc u
  refine ⟨v, hv, ?pc, ?pointer⟩
  case pc => rw [hret, hptr, hcell, hsp, hstored hpc]
  case pointer => rw [hsp', hptr, hsp, BitVec.sub_add_cancel]

/-! ## Compare and branch -/

/-- What a completed CMP leaves in FL (R17, R100). -/
theorem fl_setFl_compareFlags (s : State) (x y : Byte) : (s.setFl (compareFlags x y)).fl = compareFlags x y :=
  compareFlags_masked x y

/-- Settles O35: the three outcomes of the comparison exclude each other. -/
theorem cmpOverwritesTheFlags : Obligations.CmpOverwritesTheFlags := by
  intro a b ra rb s ha hb
  have hc := Completes.cmp (s := s) ha hb
  have hfl := fl_setFl_compareFlags s (s.reg ra) (s.reg rb)
  exact ⟨_, hc.exec_eq, fun heq => hfl.trans (compareFlags_of_eq heq), fun hlt => hfl.trans (compareFlags_of_lt hlt),
    fun hgt => hfl.trans (compareFlags_of_gt hgt), fun _ => rfl, rfl, fun _ => rfl, rfl, hc.sameControl (by simp)⟩

/-- Settles O36: `setPc` is the state the statement writes out. -/
theorem jmpSetsThePc : Obligations.JmpSetsThePc :=
  fun _ _ s ha => (Completes.jmp (s := s) ha).exec_eq

/-- Settles O37: both read the E bit, and swap the two destinations. -/
theorem conditionalJumpsAreComplements : Obligations.ConditionalJumpsAreComplements := by
  intro a r s ha
  refine ⟨fun hE => ?_, fun hE => ?_⟩
  all_goals
    rw [(Completes.jeq ha).exec_eq, (Completes.jne ha).exec_eq, State.flEqual, hE]
    exact ⟨rfl, rfl⟩

/-- A handler other than CMP's keeps FL, whether it completes or fails (10_state.md R18). -/
theorem exec_keeps_fl {i : Instr} {s t : State} (hi : ∀ a b, i ≠ .cmp a b) (h : exec i s = .next t) : t.fl = s.fl := by
  rcases exec_next_cases h with ⟨x, -, rfl⟩ | ⟨-, hc⟩
  · rfl
  · rcases hc.fl with hfl | ⟨a, b, -, -, hcmp, -⟩
    · exact hfl
    · exact absurd hcmp (hi a b)

/-- Handlers other than CMP's keep FL, one after the other. -/
theorem execAll_keeps_fl {is : List Instr} {s u : State} (hi : ∀ a b, Instr.cmp a b ∉ is)
    (h : execAll is s = .next u) : u.fl = s.fl := by
  induction is generalizing s with
  | nil => cases h; rfl
  | cons i rest ih =>
    rw [execAll] at h
    cases hx : exec i s with
    | next t =>
      rw [hx] at h
      have hrest : u.fl = t.fl := ih (fun a b hmem => hi a b (.tail i hmem)) h
      exact hrest.trans (exec_keeps_fl (fun a b e => hi a b (e ▸ .head rest)) hx)
    | fault r => exact r.casesOn
    | refused r => rw [hx] at h; cases h

/-- Settles O38: FL reaches the jump as the CMP left it, and its E bit says whether the two registers were equal. -/
theorem cmpDecidesTheLaterJump : Obligations.CmpDecidesTheLaterJump := by
  intro a b c ra rb rc between s t u ha hb hc hcmp hbetween hrun
  obtain rfl : _ = t := Host.Outcome.next.inj ((Completes.cmp ha hb).exec_eq.symm.trans hcmp)
  have hfl : u.fl = compareFlags (s.reg ra) (s.reg rb) :=
    (execAll_keeps_fl hbetween hrun).trans (fl_setFl_compareFlags s _ _)
  have hE : u.flEqual = decide (s.reg ra = s.reg rb) := by rw [State.flEqual, hfl, compareFlags_equalBit]
  refine ⟨_, _, (Completes.jeq hc).exec_eq, (Completes.jne hc).exec_eq, ?jeq, ?jne⟩
  all_goals rw [State.setPc_pc, hE]; simp only [decide_eq_true_eq]

end Sys2Proof.Proofs

/-! One step, case by case, and runs (40_fetch_decode_dispatch.md R70, R75). -/

namespace Sys2Proof.Proofs

open Sys2Proof Sys2Proof.Machine

/-- `StepTo s t`: one step takes `s` to `t`, by one of the five ways a step can go; `exists_stepTo` ties it to `step`. -/
inductive StepTo (s : State) : State → Prop
  | stopped (hrun : s.run ≠ .running) : StepTo s s
  | addressing (hrun : s.run = .running) (hpc : 254 ≤ s.pc) {e : ErrorRecord} (hfetch : fetch s = .error e) :
      StepTo s (s.raise e)
  | unknownOpcode (hrun : s.run = .running) (hpc : s.pc ≤ 253) (hlookup : lookup s.window.opcode = none) :
      StepTo s ((s.deliverTrace s.window).raise
        ⟨.unknownOpcode, s.pc, some s.window.opcode, s.window.opcode.toNat⟩)
  | badRegister (hrun : s.run = .running) (hpc : s.pc ≤ 253) {i : Instr} {x : Byte} (hdecode : decode s.window = .ok i)
      (hbad : i.firstBadOperand = some x) : StepTo s (badOperand i.opcode x (s.deliverTrace s.window))
  | completed (hrun : s.run = .running) (hpc : s.pc ≤ 253) {i : Instr} {t : State} (hdecode : decode s.window = .ok i)
      (hwf : i.wellFormed = true) (hc : Completes (s.deliverTrace s.window) i t) : StepTo s t

/-- Every step answers a next state, and reaches it in one of the five ways. -/
theorem exists_stepTo (s : State) : ∃ t, step s = .next t ∧ StepTo s t := by
  rcases step_cases s with ⟨hr, e⟩ | ⟨hr, hpc, err, hf, e⟩ | ⟨hr, hpc, hl, e⟩ | ⟨hr, hpc, i, hd, e⟩
  · exact ⟨s, e, .stopped hr⟩
  · exact ⟨_, e, .addressing hr hpc hf⟩
  · exact ⟨_, e, .unknownOpcode hr hpc hl⟩
  · rcases exec_cases i (s.deliverTrace s.window) with ⟨x, hx, e'⟩ | ⟨hwf, t, hc, e'⟩
    · exact ⟨_, e.trans e', .badRegister hr hpc hd hx⟩
    · exact ⟨t, e.trans e', .completed hr hpc hd hwf hc⟩

/-- The inversion of a step: each statement about all steps is a case split on this. -/
theorem stepTo_of_step {s t : State} (h : step s = .next t) : StepTo s t := by
  obtain ⟨u, hu, hto⟩ := exists_stepTo s
  exact Host.Outcome.next.inj (h.symm.trans hu) ▸ hto

/-- At pc 0 to 253 a RUNNING core runs the handler of the instruction its window decodes to (R70). -/
theorem step_decoded {s : State} {i : Instr} (hrun : s.run = .running) (hpc : s.pc ≤ 253)
    (hd : decode s.window = .ok i) : step s = exec i (s.deliverTrace s.window) := by
  simp only [step_running s hrun, runInstruction, show fetch s = .ok s.window from fetch_ok s hpc, runWindow, hd]

/-- At pc 0 to 253 an opcode without a row raises UnknownOpcodeError (R72). -/
theorem step_unknownOpcode {s : State} (hrun : s.run = .running) (hpc : s.pc ≤ 253)
    (hl : lookup s.window.opcode = none) :
    step s = .next ((s.deliverTrace s.window).raise
      ⟨.unknownOpcode, s.pc, some s.window.opcode, s.window.opcode.toNat⟩) := by
  simp only [step_running s hrun, runInstruction, show fetch s = .ok s.window from fetch_ok s hpc, runWindow,
    decode_of_lookup_none hl, State.deliverTrace_pc]

/-- A failing fetch's error is the step's (R71). -/
theorem step_fetch_error {s : State} {e : ErrorRecord} (hrun : s.run = .running) (hf : fetch s = .error e) :
    step s = .next (s.raise e) := by
  simp only [step_running s hrun, runInstruction, hf]

/-! ## The failing fetch -/

/-- The three records a failing fetch can give (R71, R112). -/
theorem fetch_error_cases {s : State} {e : ErrorRecord} (h : fetch s = .error e) :
    (s.pc = 254 ∧ e = ⟨.addressing, 254, some (s.mem.get 254), 256⟩) ∨
      (s.pc = 255 ∧ e = ⟨.addressing, 255, some (s.mem.get 255), 256⟩) ∨
      (256 ≤ s.pc ∧ e = ⟨.addressing, s.pc, none, s.pc⟩) := by
  have hpc : s.pc ≤ 253 ∨ s.pc = 254 ∨ s.pc = 255 ∨ 256 ≤ s.pc := by omega
  rcases hpc with hpc | hpc | hpc | hpc
  · rw [fetch_ok s hpc] at h; cases h
  · rw [fetch_254 s hpc] at h; exact .inl ⟨hpc, (Except.error.inj h).symm⟩
  · rw [fetch_255 s hpc] at h; exact .inr (.inl ⟨hpc, (Except.error.inj h).symm⟩)
  · rw [fetch_beyond s hpc] at h; exact .inr (.inr ⟨hpc, (Except.error.inj h).symm⟩)

/-- A failing fetch raises AddressingError, at the PC. -/
theorem fetch_error_kind_pc {s : State} {e : ErrorRecord} (h : fetch s = .error e) :
    e.kind = .addressing ∧ e.pc = s.pc := by
  rcases fetch_error_cases h with ⟨hpc, rfl⟩ | ⟨hpc, rfl⟩ | ⟨-, rfl⟩
  · exact ⟨rfl, hpc.symm⟩
  · exact ⟨rfl, hpc.symm⟩
  · exact ⟨rfl, rfl⟩

/-- For a PC of some run, the record of a failing fetch explains the stop (R118). -/
theorem fetch_error_explains {s : State} {e : ErrorRecord} (hpc : s.pc ≤ 256) (h : fetch s = .error e) :
    e.Explains s := by
  rcases fetch_error_cases h with ⟨hp, rfl⟩ | ⟨hp, rfl⟩ | ⟨hp, rfl⟩
  · simp [ErrorRecord.Explains, hp]
  · simp [ErrorRecord.Explains, hp]
  · have h256 : s.pc = 256 := by omega
    simp [ErrorRecord.Explains, h256]

/-- The offending address of a failing fetch (R112). -/
theorem fetch_error_detail {s : State} {e : ErrorRecord} (hpc : s.pc ≤ 256) (h : fetch s = .error e) :
    e.detail = 256 := by
  rcases fetch_error_cases h with ⟨-, rfl⟩ | ⟨-, rfl⟩ | ⟨hp, rfl⟩
  · rfl
  · rfl
  · exact Nat.le_antisymm hpc hp

/-! ## The invariant -/

@[simp] theorem window_deliverTrace (s : State) (w : Window) : (s.deliverTrace w).window = s.window := by
  simp [State.window]

theorem explains_deliverTrace {s : State} {e : ErrorRecord} (w : Window) (h : e.Explains s) :
    e.Explains (s.deliverTrace w) := by
  unfold State.deliverTrace
  split <;> exact h

/-- The invariant does not speak of the trace port. -/
theorem inv_deliverTrace {s : State} (w : Window) (h : Inv s) : Inv (s.deliverTrace w) := by
  obtain ⟨hmem, hpc, hfl, hrunning, hhalted, hfaulted⟩ := h
  unfold State.deliverTrace
  split <;> exact ⟨hmem, hpc, hfl, hrunning, hhalted, hfaulted⟩

/-- Taking an error that explains the stop keeps the invariant (R115, R118). -/
theorem inv_raise {s : State} {e : ErrorRecord} (h : Inv s) (he : e.Explains s) : Inv (s.raise e) where
  memory := h.memory
  pc := h.pc
  fl := h.fl
  running := nofun
  halted := nofun
  faulted := fun _ => ⟨e, rfl, he⟩

/-- A completed handler keeps the invariant: a byte or pc + 3 is at most 256, a push is in range, a comparison sets one bit,
and only HLT, with the PC on its own opcode, leaves RUNNING. -/
theorem Completes.inv {s t : State} {i : Instr} (hc : Completes s i t) (h : Inv s) (hrun : s.run = .running)
    (hpc : s.pc ≤ 253) (hd : decode s.window = .ok i) : Inv t where
  memory := by
    rcases hc.mem with hm | ⟨-, v, -, hm⟩ <;> rw [hm]
    · exact h.memory
    · exact Memory.set_wf v (s.reg 7 - 1).isLt h.memory
  pc := by
    rcases hc.pc_le with hle | ⟨b, hb⟩
    · omega
    · exact hb ▸ b.isLt.le
  fl := by
    rcases hc.fl with hfl | ⟨-, -, x, y, -, hfl⟩ <;> rw [hfl]
    · exact h.fl
    · rcases compareFlags_cases x y with ⟨-, hxy⟩ | ⟨-, hxy⟩ | ⟨-, hxy⟩ <;> simp [hxy]
  running := fun _ => hc.err_eq.trans (h.running hrun)
  halted := fun hhalt => by
    obtain ⟨-, -, -, hrun'⟩ := hc.control
    by_cases hi : i = .hlt
    · subst hi
      cases hc
      exact ⟨h.running hrun, hpc, (decode_ok hd).1.symm⟩
    · rw [hrun', if_neg hi, hrun] at hhalt
      cases hhalt
  faulted := fun hf => absurd hf (hc.run_ne_faulted hrun)

/-- Settles O44: each of the five ways of a step keeps the invariant; the three errors by the record that explains them. -/
theorem everyStepKeepsTheInvariant : Obligations.EveryStepKeepsTheInvariant := by
  intro s t h hstep
  have hdelivered : Inv (s.deliverTrace s.window) := inv_deliverTrace s.window h
  cases stepTo_of_step hstep with
  | stopped => exact h
  | addressing hrun hpc hf => exact inv_raise h (fetch_error_explains h.pc hf)
  | unknownOpcode hrun hpc hl =>
    refine inv_raise hdelivered (explains_deliverTrace _ ⟨rfl, hpc, rfl, rfl, fun i hd => ?_⟩)
    rw [decode_of_lookup_none hl] at hd
    cases hd
  | @badRegister hrun hpc i x hd hbad =>
    rw [badOperand, State.deliverTrace_pc]
    exact inv_raise hdelivered
      (explains_deliverTrace _ ⟨rfl, hpc, congrArg some (decode_ok hd).1, i, x, hd, hbad, rfl⟩)
  | completed hrun hpc hd hwf hc =>
    exact hc.inv hdelivered (by simpa using hrun) (by simpa using hpc) (by simpa using hd)

/-! ## Runs -/

/-- What every step keeps, every run keeps. -/
theorem runs_keep {P : State → Prop} (hstep : ∀ u v, P u → step u = .next v → P v) {n : Nat} {s t : State} (hs : P s)
    (h : Runs n s t) : P t := by
  induction n generalizing s with
  | zero => exact (runs_zero s t).1 h ▸ hs
  | succ n ih =>
    obtain ⟨u, hu, hrest⟩ := (runs_succ n s t).1 h
    exact ih (hstep s u hs hu) hrest

theorem run_ne_running_of_stopped {s : State} (h : Stopped s) : s.run ≠ .running := by
  rcases h with h | h <;> rw [h] <;> decide

/-- Settles O13: a stopped core is its own successor. -/
theorem stoppedCoreNeverMoves : Obligations.StoppedCoreNeverMoves := by
  intro n s h
  induction n with
  | zero => exact (runs_zero s s).2 rfl
  | succ n ih => exact (runs_succ n s s).2 ⟨s, step_stopped s (run_ne_running_of_stopped h), ih⟩

/-- Settles O45: the invariant is kept step by step, and with ERR set it says that the core is not RUNNING, so that no step
leaves the start. -/
theorem runsKeepTheInvariantAndTheFirstError : Obligations.RunsKeepTheInvariantAndTheFirstError := by
  intro n s t h hruns
  refine ⟨runs_keep everyStepKeepsTheInvariant h hruns, fun e he => ?_⟩
  have hrun : s.run ≠ .running := fun hr => by
    rw [h.running hr] at he
    cases he
  refine runs_keep (P := (· = s)) (fun u v hu hstep => ?_) rfl hruns
  subst hu
  exact Host.Outcome.next.inj (hstep.symm.trans (step_stopped u hrun))

/-! ## What a step leaves unchanged -/

/-- All architectural state but run and ERR is as before. -/
structure Kept (s t : State) : Prop where
  regs : t.regs = s.regs
  pc : t.pc = s.pc
  fl : t.fl = s.fl
  mem : t.mem = s.mem
  out : t.out = s.out

/-- An error taken after a fetch keeps everything but run and ERR (60_exceptions.md R116). -/
theorem kept_deliverTrace_raise (s : State) (w : Window) (e : ErrorRecord) : Kept s ((s.deliverTrace w).raise e) :=
  ⟨s.deliverTrace_regs w, s.deliverTrace_pc w, s.deliverTrace_fl w, s.deliverTrace_mem w, s.deliverTrace_out w⟩

/-- A step keeps everything but run and ERR unless a handler completes in it. -/
theorem kept_or_completed {s t : State} (h : step s = .next t) :
    Kept s t ∨ s.run = .running ∧ s.pc ≤ 253 ∧
      ∃ i, decode s.window = .ok i ∧ Completes (s.deliverTrace s.window) i t := by
  cases stepTo_of_step h with
  | stopped | addressing => exact .inl ⟨rfl, rfl, rfl, rfl, rfl⟩
  | unknownOpcode | badRegister => exact .inl (kept_deliverTrace_raise s _ _)
  | completed hrun hpc hd hwf hc => exact .inr ⟨hrun, hpc, _, hd, hc⟩

/-- Settles O20: in a step from RUNNING, FAULTED comes from one of the three errors, and each keeps the rest. -/
theorem errorsArePrecise : Obligations.ErrorsArePrecise := by
  intro s t hrun hstep hfaulted
  have hcases : Kept s t ∧ ∃ e, t.err = some e ∧ e.pc = s.pc := by
    cases stepTo_of_step hstep with
    | stopped hne => exact absurd hrun hne
    | addressing _ _ hf => exact ⟨⟨rfl, rfl, rfl, rfl, rfl⟩, _, rfl, (fetch_error_kind_pc hf).2⟩
    | unknownOpcode => exact ⟨kept_deliverTrace_raise s _ _, _, rfl, rfl⟩
    | badRegister => exact ⟨kept_deliverTrace_raise s _ _, _, rfl, s.deliverTrace_pc _⟩
    | completed _ _ _ _ hc => exact absurd hfaulted (hc.run_ne_faulted (by simpa using hrun))
  obtain ⟨hkept, e, he, hpc⟩ := hcases
  exact ⟨e, he, hpc, hkept.regs, hkept.pc, hkept.fl, hkept.mem, hkept.out⟩

/-- Settles O39: a step that completes no handler keeps FL, and so does every handler but CMP's. -/
theorem onlyCmpChangesTheFlags : Obligations.OnlyCmpChangesTheFlags := by
  intro s t hstep hne
  rcases kept_or_completed hstep with hkept | ⟨hrun, hpc, i, hd, hc⟩
  · exact absurd hkept.fl hne
  · rcases hc.fl with hfl | ⟨a, b, -, -, rfl, -⟩
    · exact absurd (hfl.trans (s.deliverTrace_fl _)) hne
    · exact ⟨hrun, hpc, a, b, hd⟩

/-- Settles O40: memory is changed by a completed push alone, and `Memory.get_set_ne` leaves its one cell. -/
theorem onlyPushAndCallWriteMemory : Obligations.OnlyPushAndCallWriteMemory := by
  intro s t c hstep hne
  rcases kept_or_completed hstep with hkept | ⟨hrun, -, i, hd, hc⟩
  · exact absurd (by rw [hkept.mem]) hne
  · rcases hc.mem with hm | ⟨a, v, hi, hm⟩
    · exact absurd (by rw [hm, State.deliverTrace_mem]) hne
    · rw [State.reg_deliverTrace, State.deliverTrace_mem] at hm
      have hcell : c = (s.reg 7 - 1).toNat := by_contra fun hc => hne (by rw [hm, Memory.get_set_ne _ _ hc])
      rcases hi with rfl | rfl
      · exact ⟨hrun, hcell, a, .inl hd⟩
      · exact ⟨hrun, hcell, a, .inr hd⟩

/-- Settles O41: `MayWriteReg` is the statement's list. -/
theorem onlyNamedRegistersChange : Obligations.OnlyNamedRegistersChange := by
  intro s t r hstep hne
  rcases kept_or_completed hstep with hkept | ⟨-, -, i, hd, hc⟩
  · exact absurd (State.reg_congr hkept.regs r) hne
  · rcases hc.reg r with hreg | hwrites
    · exact absurd (hreg.trans (s.reg_deliverTrace _ r)) hne
    · exact ⟨i, hd, hwrites⟩

/-- Settles O42: OUT is changed by a completed PRN alone. -/
theorem onlyPrnAppendsToOut : Obligations.OnlyPrnAppendsToOut := by
  intro s t hstep hne
  rcases kept_or_completed hstep with hkept | ⟨-, -, i, hd, hc⟩
  · exact absurd hkept.out hne
  · rcases hc.out with hout | ⟨a, r, rfl, ha, hout⟩
    · exact absurd (hout.trans (s.deliverTrace_out _)) hne
    · exact ⟨a, r, hd, ha, by rw [hout, State.deliverTrace_out, State.reg_deliverTrace]⟩

/-- A step keeps OUT or appends to it. -/
theorem out_prefix_of_step {s t : State} (h : step s = .next t) : s.out <+: t.out := by
  by_cases heq : t.out = s.out
  · rw [heq]
  · obtain ⟨-, r, -, -, hout⟩ := onlyPrnAppendsToOut s t h heq
    exact ⟨[s.reg r], hout.symm⟩

/-- Settles O46: that OUT begins with the start's OUT is kept by every step. -/
theorem outputOnlyGrowsAlongRuns : Obligations.OutputOnlyGrowsAlongRuns := fun _ s _ h =>
  runs_keep (P := fun u => s.out <+: u.out) (fun _ _ hu hstep => hu.trans (out_prefix_of_step hstep))
    List.prefix_rfl h

/-! ## The outcome of a step -/

/-- Settles O14: `exists_stepTo` without the way the step goes. -/
theorem everyStepAnswersANextState : Obligations.EveryStepAnswersANextState :=
  fun s => (exists_stepTo s).imp fun _ h => h.1

/-- Settles O12: `deliverTrace` is the conditional the statement writes out. -/
theorem stepRunsTheDecodedInstruction : Obligations.StepRunsTheDecodedInstruction :=
  fun _ _ hrun hpc hd => step_decoded hrun hpc hd

/-- Settles O15: no row under the opcode means no lookup, and the FAULTED state the step answers is stopped. -/
theorem unknownOpcodeIsFatal : Obligations.UnknownOpcodeIsFatal := by
  intro s hrun hpc hrows
  have hl : lookup s.window.opcode = none :=
    List.find?_eq_none.2 fun row hmem => mt eq_of_beq (hrows row hmem)
  have hkept := kept_deliverTrace_raise s s.window
    ⟨.unknownOpcode, s.pc, some s.window.opcode, s.window.opcode.toNat⟩
  exact ⟨_, _, step_unknownOpcode hrun hpc hl, rfl, rfl, rfl, rfl, rfl, hkept.regs, hkept.pc, hkept.fl, hkept.mem,
    hkept.out, fun n => stoppedCoreNeverMoves n _ (.inr rfl)⟩

/-- Settles O17: `raise` is the state the statement writes out. -/
theorem addressingErrorRecord : Obligations.AddressingErrorRecord := by
  intro s hrun
  refine ⟨fun hpc => step_fetch_error hrun (fetch_254 s hpc), fun hpc => step_fetch_error hrun (fetch_255 s hpc),
    fun hpc => ?_⟩
  have hf : fetch s = .error ⟨.addressing, 256, none, 256⟩ := hpc ▸ fetch_beyond s hpc.ge
  exact step_fetch_error hrun hf

/-- A handler raises InvalidRegisterError or nothing (R113). -/
theorem exec_err {i : Instr} {s t : State} (h : exec i s = .next t) :
    (∃ e, t.err = some e ∧ e.kind = .invalidRegister) ∨ t.err = s.err := by
  rcases exec_next_cases h with ⟨x, -, rfl⟩ | ⟨-, hc⟩
  · exact .inl ⟨_, rfl, rfl⟩
  · exact .inr hc.err_eq

/-- Settles O21: the five ways of a step, in the order of the checks. -/
theorem firstFailingCheckDecidesTheError : Obligations.FirstFailingCheckDecidesTheError := by
  intro s t hrun herr hstep
  cases stepTo_of_step hstep with
  | stopped hne => exact absurd hrun hne
  | addressing _ hpc hf =>
    rw [if_pos hpc]
    exact congrArg some (fetch_error_kind_pc hf).1
  | unknownOpcode _ hpc hl =>
    rw [if_neg (by omega), decode_of_lookup_none hl]
    rfl
  | @badRegister _ hpc i x hd hbad =>
    have hwf : ¬ i.wellFormed = true := fun h => by
      rw [firstBadOperand_eq_none.2 h] at hbad
      cases hbad
    rw [if_neg (by omega), hd]
    exact (if_neg hwf).symm
  | completed _ hpc hd hwf hc =>
    rw [if_neg (by omega), hd, hc.err_eq, State.deliverTrace_err, herr]
    exact (if_pos hwf).symm

/-- Settles O16: the access primitives' own conditions, then the first check of the step, then the fetch's record, then
`exec_err`. -/
theorem addressingErrorExactlyAtTheWindowsEnd : Obligations.AddressingErrorExactlyAtTheWindowsEnd := by
  refine ⟨fun m addr v => ⟨memRead_eq_error_iff m addr, memWrite_eq_error_iff m addr v⟩, fun s hrun herr hpc => ?step,
    fun s e hpc hf => ⟨(fetch_error_kind_pc hf).1, fetch_error_detail hpc hf⟩, fun i s t e herr hexec he => ?handler⟩
  case step =>
    obtain ⟨t, hstep, -⟩ := exists_stepTo s
    have hkind := firstFailingCheckDecidesTheError s t hrun herr hstep
    refine ⟨t, hstep, ⟨fun ⟨e, he, hk⟩ => ?only, fun hend => ?atEnd⟩⟩
    case only =>
      by_contra hend
      rw [he, if_neg (by omega), Option.map_some, hk] at hkind
      split at hkind
      · cases hkind
      · split at hkind <;> cases hkind
    case atEnd =>
      rw [if_pos (by omega)] at hkind
      exact Option.map_eq_some_iff.1 hkind
  case handler =>
    rcases exec_err hexec with ⟨e', he', hk⟩ | hsame
    · rw [Option.some.inj (he.symm.trans he'), hk]
      decide
    · rw [hsame, herr] at he
      cases he

/-- Settles O22: the PC each completed handler leaves. -/
theorem handlersMoveThePc : Obligations.HandlersMoveThePc := by
  intro s t hrun hstep hne
  cases stepTo_of_step hstep with
  | stopped hstop => exact absurd hrun hstop
  | addressing | unknownOpcode | badRegister => exact absurd rfl hne
  | @completed _ hpc i _ hd _ hc =>
    refine ⟨hpc, i, hd, ?_⟩
    cases hc with
    | ldi | mul | add | cmp => exact congrArg (· + 3) (s.deliverTrace_pc _)
    | prn | push | pop => exact congrArg (· + 2) (s.deliverTrace_pc _)
    | hlt => exact s.deliverTrace_pc _
    | ret => simp [State.loadAtSp_eq]
    | call ha => exact ⟨_, ha, rfl⟩
    | jmp ha => exact ⟨_, ha, by simp⟩
    | jeq ha | jne ha => exact ⟨_, ha, by simp [State.flEqual]⟩

/-- Settles O26: whatever follows it, the byte 0x01 decodes to HLT, which halts where it can be fetched. -/
theorem hltHaltsOnItsOwnAddress : Obligations.HltHaltsOnItsOwnAddress := by
  refine ⟨fun a b => rfl, exec_hlt_eq, fun s hrun hbyte hpc => ?halts, fun s hrun _ hend => ?fails⟩
  case halts =>
    have hd : decode s.window = .ok .hlt := decode_of_prefix hbyte.symm List.nil_prefix
    exact ⟨_, (step_decoded hrun hpc hd).trans (exec_hlt_eq _), rfl, s.deliverTrace_pc _,
      fun n => stoppedCoreNeverMoves n _ (.inl rfl)⟩
  case fails =>
    rcases hend with hpc | hpc
    · exact ⟨_, _, step_fetch_error hrun (fetch_254 s hpc), rfl, rfl, rfl⟩
    · exact ⟨_, _, step_fetch_error hrun (fetch_255 s hpc), rfl, rfl, rfl⟩

/-- Settles O43: the PUSH moves the PC to pc + 2 and writes one cell, which is the next opcode's or is not. -/
theorem nextFetchSeesThePushedByte : Obligations.NextFetchSeesThePushedByte := by
  intro a r s t hrun hpc hd ha hr hstep
  obtain ⟨t', ht', -, -, hpushed, hother, hpc', -⟩ := pushStoresBelowThePointer a r (s.deliverTrace s.window) ha
  obtain rfl : t = t' := Host.Outcome.next.inj (hstep.symm.trans ((step_decoded hrun hpc hd).trans ht'))
  simp only [State.reg_deliverTrace, State.deliverTrace_mem, State.deliverTrace_pc, if_neg hr] at hpushed hother hpc'
  change t.mem.get t.pc = _
  rw [hpc']
  split
  · next hcell => rw [← hcell, hpushed]
  · next hcell => exact hother _ (Ne.symm hcell)

end Sys2Proof.Proofs

/-! The trace port (40_fetch_decode_dispatch.md R77) and the placing of a word. -/

namespace Sys2Proof.Proofs

open Sys2Proof Sys2Proof.Machine

/-- The state with its trace port off and empty: what two states that are `SameArch` have in common. -/
def untraced (s : State) : State := { s with traceOn := false, trace := [] }

theorem sameArch_iff {s t : State} : SameArch s t ↔ untraced t = untraced s := by
  simp [SameArch, untraced]

theorem untraced_deliverTrace (s : State) (w : Window) : untraced (s.deliverTrace w) = untraced s := by
  unfold State.deliverTrace
  split <;> rfl

/-- No handler reads the trace port. -/
theorem Completes.untraced {s t : State} {i : Instr} (h : Completes s i t) :
    Completes (untraced s) i (untraced t) := by
  cases h with
  | ldi ha => exact .ldi ha
  | prn ha => exact .prn ha
  | hlt => exact .hlt
  | mul ha hb => exact .mul ha hb
  | add ha hb => exact .add ha hb
  | push ha => exact .push ha
  | pop ha => exact .pop ha
  | call ha => exact .call ha
  | ret => exact .ret
  | cmp ha hb => exact .cmp ha hb
  | jmp ha => exact .jmp ha
  | jeq ha => exact .jeq ha
  | jne ha => exact .jne ha

/-- A step does not read the trace port: it commutes with `untraced`. -/
theorem step_untraced {s t : State} (h : step s = .next t) : step (untraced s) = .next (untraced t) := by
  have hdelivered (w : Window) : (untraced s).deliverTrace w = untraced (s.deliverTrace w) :=
    (State.deliverTrace_off _ w rfl).trans (untraced_deliverTrace s w).symm
  cases stepTo_of_step h with
  | stopped hrun => exact step_stopped _ hrun
  | addressing hrun _ hf => exact step_fetch_error (s := untraced s) hrun hf
  | unknownOpcode hrun hpc hl =>
    refine (step_unknownOpcode (s := untraced s) hrun hpc hl).trans ?_
    rw [hdelivered]
    rfl
  | badRegister hrun hpc hd hbad =>
    refine (step_decoded (s := untraced s) hrun hpc hd).trans ?_
    rw [hdelivered]
    exact exec_firstBad _ hbad
  | completed hrun hpc hd _ hc =>
    refine (step_decoded (s := untraced s) hrun hpc hd).trans ?_
    rw [hdelivered]
    exact hc.untraced.exec_eq

/-- Settles O47: the two states are one state under `untraced`, and so are the states after the step. -/
theorem traceChangesNoArchitecturalState : Obligations.TraceChangesNoArchitecturalState := by
  intro s s' t t' hsame hstep hstep'
  have hstep'' : step (untraced s) = .next (untraced t') := sameArch_iff.1 hsame ▸ step_untraced hstep'
  exact sameArch_iff.2 (Host.Outcome.next.inj (hstep''.symm.trans (step_untraced hstep)))

/-- What a delivery adds, written as the statement does. -/
theorem trace_deliverTrace_window {s : State} (hrun : s.run = .running) (hpc : s.pc ≤ 253) :
    (s.deliverTrace s.window).trace = s.trace ++
      if s.run = .running ∧ s.pc ≤ 253 ∧ s.traceOn = true then
        [⟨s.pc, s.mem.get s.pc, s.mem.get (s.pc + 1), s.mem.get (s.pc + 2), s.regs⟩]
      else [] := by
  rw [State.deliverTrace_trace]
  cases hon : s.traceOn <;> simp [hrun, hpc, State.window]

/-- Settles O48: the delivery comes with the fetch, and nothing after it touches the port. -/
theorem traceDeliversOneRecordPerFetch : Obligations.TraceDeliversOneRecordPerFetch := by
  intro s t hstep
  cases stepTo_of_step hstep with
  | stopped hrun => exact ⟨rfl, by rw [if_neg fun h => hrun h.1, List.append_nil]⟩
  | addressing _ hpc => exact ⟨rfl, by rw [if_neg fun h => by omega, List.append_nil, State.raise_trace]⟩
  | unknownOpcode hrun hpc | badRegister hrun hpc =>
    exact ⟨s.deliverTrace_traceOn _, trace_deliverTrace_window hrun hpc⟩
  | completed hrun hpc _ _ hc =>
    obtain ⟨-, hon, htrace, -⟩ := hc.control
    exact ⟨hon.trans (s.deliverTrace_traceOn _), htrace.trans (trace_deliverTrace_window hrun hpc)⟩

/-! ## The placing of a word -/

theorem decodeTableWord_eq_some {nbits w : Nat} {i : Instr} (h : decodeTableWord nbits w = some i) :
    decode (tableWordWindow nbits w) = .ok i := by
  unfold decodeTableWord at h
  split at h
  · next hd => rw [hd, Option.some.inj h]
  · cases h

/-- A window's bytes written at the PC are the window there. -/
theorem window_of_memWriteAll {s : State} {w : Window} {m : Memory} (h : memWriteAll s.mem s.pc w.bytes = .ok m)
    {s' : State} (hmem : s'.mem = m) (hpc : s'.pc = s.pc) : s'.window = w := by
  obtain ⟨o, a, b⟩ := w
  simp [State.window, hmem, hpc, memWriteAll_get h, Window.bytes]

/-- A window's bytes written at the PC change no cell outside pc to pc + 2. -/
theorem get_of_memWriteAll_window {m m' : Memory} {pc c : Nat} {w : Window} (h : memWriteAll m pc w.bytes = .ok m')
    (hc : c < pc ∨ pc + 2 < c) : m'.get c = m.get c := by
  rw [memWriteAll_get h]
  rcases hc with hc | hc
  · exact if_neg (by omega)
  · have hlen : w.bytes.length ≤ c - pc := by simp [Window.bytes]; omega
    rw [if_pos (by omega), List.getElem?_eq_none hlen, Option.getD_none]

/-- Settles O49: three bytes fit at pc 0 to 253, and the step fetches the window they make. -/
theorem placedWordRunsNext : Obligations.PlacedWordRunsNext := by
  intro s nbits w i hpc hoff hd
  have hfit : s.pc + (tableWordWindow nbits w).bytes.length ≤ 256 := by simp [Window.bytes]; omega
  obtain ⟨m, hm⟩ := memWriteAll_fits s.mem s.pc _ hfit
  have hplaced : s.withFetchWord nbits w = { s with mem := m, run := .running } := by
    simp only [State.withFetchWord, placeFetchWord, hm]
  refine ⟨_, hplaced, ?step, rfl, rfl, rfl, rfl, rfl, rfl, fun c hc => get_of_memWriteAll_window hm hc⟩
  case step =>
    have hwindow := window_of_memWriteAll hm (s' := { s with mem := m, run := .running }) rfl rfl
    exact (step_decoded (s := { s with mem := m, run := .running }) rfl hpc
      (hwindow ▸ decodeTableWord_eq_some hd)).trans (congrArg (exec i) (State.deliverTrace_off _ _ hoff))

end Sys2Proof.Proofs
